-- ==== Sys2Proof/Word.lean ====
section
/-! DEFINITION. The byte, the only word of the block (R5, R34: every integer is one byte wide), and byte sequences. -/

namespace Sys2Proof

/-- R5: an unsigned 8-bit value, bit 7 the most significant. -/
abbrev Byte := BitVec 8

/-- R5: a byte sequence, index 0 first; used for payloads, frames and texts. -/
abbrev Bytes := List Byte

end Sys2Proof
end

