-- ==== Sys2Proof/Config.lean ====
section
/-! DEFINITION. The parameters of the block (R4), fixed when it is built, and its one free value. -/

namespace Sys2Proof

/-- R7, R4: which endpoint the block serves. `device` receives Host-to-Device payloads and sends `Print`;
`host` receives Device-to-Host payloads and sends `SetOutput`. -/
inductive Role where
  | device
  | host
deriving DecidableEq, Repr

/-- R4 `BUF_CAP`, R13: capacity of the payload buffer in bytes. -/
def Config.bufCap : Nat := 255

/-- R4 `TX_MAX_PAYLOAD`: the largest payload the frame encoder accepts. -/
def Config.txMaxPayload : Nat := 254

/-- R4 `RX_MAX_PAYLOAD`: the largest payload the parser can emit. -/
def Config.rxMaxPayload : Nat := 255

/-- R127, R21: the longest text a one-byte length (`INT_W` = 1, R55) can state. -/
def Config.textMax : Nat := 255

/-- R145 `enc_len`: 9 bits, a payload length of 0 to 511. -/
def Config.encLenMax : Nat := 511

/-- R60: the one assigned tag of each direction. -/
def Config.tag : Byte := 0x00#8

/-- R23, and U4 of 93_implementation_defined.md: the unspecified byte that `BUF[i]` holds until something is
written there. A FREE VALUE: no body, so nothing can be proved of it (log entry 3). -/
opaque Config.bufPowerOn : Nat → Byte

/-- The role `State.reset` is built with. DESIGN CHOICE: the spec leaves ROLE a free parameter (log entry 2);
`State.resetAs` takes either. -/
def Config.resetRole : Role := .device

end Sys2Proof
end

