-- ==== Sys2Proof/Machine/Utf8.lean ====
section
/-! DEFINITION. `ValidUtf8` of R119: the nine rows of well-formed byte sequences, and the check of a text. It
stands before Syntax because a text carries its own validity (R21, R127). -/

namespace Sys2Proof

/-- A byte range of R119's table, both ends included. -/
abbrev ByteRange := Nat × Nat

def inRange (r : ByteRange) (b : Byte) : Bool := decide (r.1 ≤ b.toNat ∧ b.toNat ≤ r.2)

/-- Table of R119: one row per form, the range of each byte of the sequence in order. -/
def utf8Table : List (List ByteRange) :=
  [ [(0x00, 0x7F)],
    [(0xC2, 0xDF), (0x80, 0xBF)],
    [(0xE0, 0xE0), (0xA0, 0xBF), (0x80, 0xBF)],
    [(0xE1, 0xEC), (0x80, 0xBF), (0x80, 0xBF)],
    [(0xED, 0xED), (0x80, 0x9F), (0x80, 0xBF)],
    [(0xEE, 0xEF), (0x80, 0xBF), (0x80, 0xBF)],
    [(0xF0, 0xF0), (0x90, 0xBF), (0x80, 0xBF), (0x80, 0xBF)],
    [(0xF1, 0xF3), (0x80, 0xBF), (0x80, 0xBF), (0x80, 0xBF)],
    [(0xF4, 0xF4), (0x80, 0x8F), (0x80, 0xBF), (0x80, 0xBF)] ]

/-- R119: "the first byte fixing how many follow and in which ranges"; none if no row begins with this byte. -/
def utf8Follow (b : Byte) : Option (List ByteRange) :=
  utf8Table.findSome? fun row =>
    match row with
    | [] => none
    | r :: rest => if inRange r b then some rest else none

/-- Reads a text left to right. The first argument is what the sequence in progress still needs. -/
def utf8Scan : List ByteRange → Bytes → Bool
  | [], [] => true
  | _ :: _, [] => false
  | [], b :: t =>
    match utf8Follow b with
    | none => false
    | some needed => utf8Scan needed t
  | r :: rs, b :: t => inRange r b && utf8Scan rs t

/-- R119 `ValidUtf8(t)`. Proved equal to "a concatenation of zero or more well-formed sequences" as an
obligation of its own. -/
def validUtf8 (t : Bytes) : Bool := utf8Scan [] t

end Sys2Proof
end

