-- ==== Sys2Proof/Syntax.lean ====
section
/-! DEFINITION. The messages (R21), the errors (R161), the transfers offered at the ports (R145) and the
instructions: one constructor per row of spec/opcode_table.json. -/

namespace Sys2Proof

/-- R21, R127: a text of 0 to 255 bytes of valid UTF-8, with the two facts, "so that an ill-formed message cannot
be handed to the encoder". -/
structure Text where
  bytes : Bytes
  valid : validUtf8 bytes = true
  short : bytes.length ≤ Config.textMax
deriving DecidableEq, Repr

/-- R50, R51: the payload of one frame on the wire: 0 to 255 bytes. "`length_byte` is ... equal to the number of bytes in
`payload_bytes`", so it is computed, and a frame whose length byte says otherwise cannot be offered. -/
structure FramePayload where
  bytes : Bytes
  short : bytes.length ≤ Config.rxMaxPayload
deriving DecidableEq, Repr

/-- R145: a payload whose length the 9-bit port `enc_len` can state. -/
structure EncPayload where
  bytes : Bytes
  fits : bytes.length ≤ Config.encLenMax
deriving DecidableEq, Repr

/-- R21, R58: the messages Host to Device. -/
inductive H2DMessage where
  | setOutput (v : Bool)
deriving DecidableEq, Repr

/-- R21, R59: the messages Device to Host. -/
inductive D2HMessage where
  | print (t : Text)
deriving DecidableEq, Repr

/-- A message of either direction (R7: which one an instance sends is its ROLE's). -/
inductive Message where
  | h2d (m : H2DMessage)
  | d2h (m : D2HMessage)
deriving DecidableEq, Repr

/-- R161: what `DEC` can report. Kept symbolic (D10); the port codes are in Machine/Flags.lean. -/
inductive DecodeError where
  /-- R117: the tag matches no declared variant -/
  | unknownTag
  /-- R118: fewer bytes than the field layout requires -/
  | truncated
  /-- R119: a text field's bytes are not valid UTF-8 -/
  | invalidUtf8
  /-- R120: a bool byte is neither 0 nor 1 -/
  | invalidBool
  /-- R121: bytes left after the last field -/
  | trailingBytes
deriving DecidableEq, Repr

/-- R161, R101: what `ENCF` can report. -/
inductive EncodeError where
  /-- R101: a payload of more than 254 bytes -/
  | oversize
deriving DecidableEq, Repr

/-- R114: the result of `DEC`. -/
inductive DecResult where
  | ok (m : Message)
  | err (e : DecodeError)
deriving DecidableEq, Repr

/-- R100: the result of `ENCF`. -/
inductive EncfResult where
  | ok (f : Bytes)
  | err (e : EncodeError)
deriving DecidableEq, Repr

/-- R140: the result of `RXSTEP`. -/
inductive RxResult where
  | nothing
  | delivered (m : Message)
  | failed (e : DecodeError)
deriving DecidableEq, Repr

/-- R142: the result of `SEND`. -/
inductive SendResult where
  | sent (f : Bytes)
  | failed (e : EncodeError)
deriving DecidableEq, Repr

/-- The rows of spec/opcode_table.json, in the table's order. `rest` is what a payload holds beyond the
bytes named before it (log entry 22). -/
inductive Instr where
  /-- RX.LEN0 (R81): a zero byte in Idle -/
  | rxLen0
  /-- RX.LEN (R82): the length byte of a new frame -/
  | rxLen (l : Byte)
  /-- RX.DATA (R83): a payload byte that is not the last -/
  | rxData (d : Byte)
  /-- RX.LAST (R84): the last payload byte -/
  | rxLast (d : Byte)
  /-- FRAME (R50): the length byte and the payload on the wire -/
  | frame (l : Byte) (payload : Bytes)
  /-- H2D.SetOutput (R115, R58): the bool, none where the payload ends before it ("shorter gives Truncated") -/
  | h2dSetOutput (v : Option Bool) (rest : Bytes)
  /-- H2D.SetOutput.badbool (R120) -/
  | h2dBadBool (x : Byte) (rest : Bytes)
  /-- H2D.reserved-tag (R117) -/
  | h2dReservedTag (t : Byte) (rest : Bytes)
  /-- D2H.Print (R116, R59), a pattern on payload byte 0 only (R65 (3)): `n` the text length byte, none where the payload
  ends before it -/
  | d2hPrint (n : Option Byte) (rest : Bytes)
  /-- D2H.reserved-tag (R117) -/
  | d2hReservedTag (t : Byte) (rest : Bytes)
  /-- FEED (R80) -/
  | feed (b : Byte)
  /-- RESET (R190) -/
  | reset
  /-- ENCF (R100) -/
  | encf (p : Bytes)
  /-- ENC.SetOutput (R112) -/
  | encSetOutput (v : Bool)
  /-- ENC.Print (R113) -/
  | encPrint (t : Text)
  /-- DEC (R114) -/
  | dec (p : Bytes)
  /-- DEC_H2D (R115) -/
  | decH2D (p : Bytes)
  /-- DEC_D2H (R116) -/
  | decD2H (p : Bytes)
  /-- RXSTEP (R140) -/
  | rxstep (b : Byte)
  /-- SEND (R142) -/
  | send (m : Message)
deriving DecidableEq, Repr

/-- One operation as the environment offers it (R65): a received byte to be read in its class, a frame or a payload in
its format, or a port operation, "selected by which port is used and not by any bit pattern". Each carries exactly what
its format or its ports of R145 can carry (log entry 7): `rx_byte` is one byte, `tx_bool` one bit, `enc_len` 9 bits, and
an ill-formed text "is unconstructible in the model" (R127, R202). SEND comes in at `tx_bool` or at `tx_text_*`. -/
inductive Transfer where
  | rxClass (b : Byte)
  | wireFrame (p : FramePayload)
  | payloadH2D (tag : Byte) (fields : Bytes)
  | payloadD2H (tag : Byte) (fields : Bytes)
  | feed (b : Byte)
  | rst
  | encf (p : EncPayload)
  | encSetOutput (v : Bool)
  | encPrint (t : Text)
  | dec (p : Bytes)
  | decH2D (p : Bytes)
  | decD2H (p : Bytes)
  | rxstep (b : Byte)
  | sendBool (v : Bool)
  | sendText (t : Text)
deriving DecidableEq, Repr

end Sys2Proof
end

