-- ==== Sys2Proof/WellFormed.lean ====
section
/-! DEFINITION. Which instructions are terms of the table: the operand lies in its row's pattern (R65). An
ill-formed message needs no check: it cannot be built (R127). -/

namespace Sys2Proof

/-- R65: the operand matches its row. RX.LEN and the reserved tags exclude 0 (R82, R117), a bad bool is 2 to 255
(R120), a frame carries as many bytes as its length byte says (R50), nothing follows a field that is missing, and ENCF's
length is one that `enc_len` can state (R145). -/
def Instr.wellFormed : Instr → Bool
  | .rxLen0 => true
  | .rxLen l => l != 0#8
  | .rxData _ => true
  | .rxLast _ => true
  | .frame l payload => payload.length == l.toNat
  | .h2dSetOutput v rest => v.isSome || rest.isEmpty
  | .h2dBadBool x _ => decide (1 < x.toNat)
  | .h2dReservedTag t _ => t != 0#8
  | .d2hPrint n rest => n.isSome || rest.isEmpty
  | .d2hReservedTag t _ => t != 0#8
  | .feed _ => true
  | .reset => true
  | .encf p => decide (p.length ≤ Config.encLenMax)
  | .encSetOutput _ => true
  | .encPrint _ => true
  | .dec _ => true
  | .decH2D _ => true
  | .decD2H _ => true
  | .rxstep _ => true
  | .send _ => true

end Sys2Proof
end

