-- ==== Sys2Proof/Decode.lean ====
section
/-! DEFINITION. From a transfer to an instruction and back (R53, R65, and the layouts of R50, R58, R59). The
pair (`EL`, `WC`) is an argument: it "says how the next input is to be decoded" (R17). -/

namespace Sys2Proof

/-- R53: the received-byte classes. -/
inductive RxClass where
  | len0 | len | data | last
deriving DecidableEq, Repr

/-- R53, R80: the class of byte `b` in parser state (`el`, `wc`); none where `EL != 0` and `WC > EL - 1`, which is
unreachable (R15) and to which no class applies. The Idle test comes first (R90 (a)). -/
def rxClass (el wc b : Byte) : Option RxClass :=
  if el = 0#8 then (if b = 0#8 then some .len0 else some .len)
  else if wc.toNat < el.toNat - 1 then some .data
  else if wc.toNat = el.toNat - 1 then some .last
  else none

/-- Why a transfer is no instruction. -/
inductive Reject where
  /-- R15, R202, D17: a received byte where `EL != 0` and `WC >= EL` is of no class -/
  | noRxClass
deriving DecidableEq, Repr

/-- R127: a text from its bytes, if they are one. -/
def Text.ofBytes? (t : Bytes) : Option Text :=
  if h : validUtf8 t = true ∧ t.length ≤ Config.textMax then some ⟨t, h.1, h.2⟩ else none

/-- R56: a bool is one byte, 0 or 1. -/
def boolByte (v : Bool) : Byte := if v then 0x01#8 else 0x00#8

/-- A length as one byte (R57, R100 `zext_8`), used where it fits. -/
def lengthByte (p : Bytes) : Byte := BitVec.ofNat 8 p.length

/-- R53. -/
def decodeRx (el wc b : Byte) : Except Reject Instr :=
  match rxClass el wc b with
  | some .len0 => .ok .rxLen0
  | some .len => .ok (.rxLen b)
  | some .data => .ok (.rxData b)
  | some .last => .ok (.rxLast b)
  | none => .error .noRxClass

/-- R65 (3): the Host-to-Device payload rows, tried in the table's order. SetOutput's pattern is on byte 1 too, where
there is one. -/
def decodeH2DRow (t : Byte) (fields : Bytes) : Instr :=
  if t = Config.tag then
    match fields with
    | [] => .h2dSetOutput none []
    | x :: rest =>
      if x = 0x00#8 then .h2dSetOutput (some false) rest
      else if x = 0x01#8 then .h2dSetOutput (some true) rest
      else .h2dBadBool x rest
  else .h2dReservedTag t fields

/-- R65 (3): the Device-to-Host payload rows, a pattern on byte 0 alone. -/
def decodeD2HRow (t : Byte) (fields : Bytes) : Instr :=
  if t = Config.tag then
    match fields with
    | [] => .d2hPrint none []
    | n :: rest => .d2hPrint (some n) rest
  else .d2hReservedTag t fields

/-- R65: the instruction a transfer stands for in parser state (`el`, `wc`). -/
def decode (el wc : Byte) (t : Transfer) : Except Reject Instr :=
  match t with
  | .rxClass b => decodeRx el wc b
  | .wireFrame p => .ok (.frame (lengthByte p.bytes) p.bytes)
  | .payloadH2D t fields => .ok (decodeH2DRow t fields)
  | .payloadD2H t fields => .ok (decodeD2HRow t fields)
  | .feed b => .ok (.feed b)
  | .rst => .ok .reset
  | .encf p => .ok (.encf p.bytes)
  | .encSetOutput v => .ok (.encSetOutput v)
  | .encPrint t => .ok (.encPrint t)
  | .dec p => .ok (.dec p)
  | .decH2D p => .ok (.decH2D p)
  | .decD2H p => .ok (.decD2H p)
  | .rxstep b => .ok (.rxstep b)
  | .sendBool v => .ok (.send (.h2d (.setOutput v)))
  | .sendText t => .ok (.send (.d2h (.print t)))

/-- The bytes of a variant's fields: the first field's byte, if it is there, and what follows it. -/
def fieldBytes (first : Option Byte) (rest : Bytes) : Bytes :=
  match first with
  | none => []
  | some x => x :: rest

/-- The transfer that offers an instruction, from the same layouts (R50, R53, R58, R59, R145); none for a frame whose
length byte is not its payload's length (R50), and for an `ENCF` whose length `enc_len` cannot state. -/
def encode : Instr → Option Transfer
  | .rxLen0 => some (.rxClass 0x00#8)
  | .rxLen l => some (.rxClass l)
  | .rxData d => some (.rxClass d)
  | .rxLast d => some (.rxClass d)
  | .frame l payload =>
    if h : payload.length = l.toNat then some (.wireFrame ⟨payload, h ▸ Nat.lt_succ_iff.1 l.isLt⟩) else none
  | .h2dSetOutput v rest => some (.payloadH2D Config.tag (fieldBytes (v.map boolByte) rest))
  | .h2dBadBool x rest => some (.payloadH2D Config.tag (x :: rest))
  | .h2dReservedTag t rest => some (.payloadH2D t rest)
  | .d2hPrint n rest => some (.payloadD2H Config.tag (fieldBytes n rest))
  | .d2hReservedTag t rest => some (.payloadD2H t rest)
  | .feed b => some (.feed b)
  | .reset => some .rst
  | .encf p => if h : p.length ≤ Config.encLenMax then some (.encf ⟨p, h⟩) else none
  | .encSetOutput v => some (.encSetOutput v)
  | .encPrint t => some (.encPrint t)
  | .dec p => some (.dec p)
  | .decH2D p => some (.decH2D p)
  | .decD2H p => some (.decD2H p)
  | .rxstep b => some (.rxstep b)
  | .send (.h2d (.setOutput v)) => some (.sendBool v)
  | .send (.d2h (.print t)) => some (.sendText t)

/-- The bytes of a transfer as its layout orders them: a frame's length byte and payload (R50), a payload's tag and
fields (R54), `tx_text_len` and then the text (R145), a bool as one byte. -/
def Transfer.data : Transfer → Bytes
  | .rxClass b | .feed b | .rxstep b => [b]
  | .wireFrame p => lengthByte p.bytes :: p.bytes
  | .payloadH2D t fields | .payloadD2H t fields => t :: fields
  | .rst => []
  | .encf p => p.bytes
  | .encSetOutput v | .sendBool v => [boolByte v]
  | .encPrint t | .sendText t => lengthByte t.bytes :: t.bytes
  | .dec p | .decH2D p | .decD2H p => p

/-- R53: the parser state is one in which the received-byte row applies; every other row applies in any. -/
def Instr.inMode (el wc : Byte) : Instr → Bool
  | .rxLen0 => rxClass el wc 0x00#8 == some .len0
  | .rxLen l => rxClass el wc l == some .len
  | .rxData d => rxClass el wc d == some .data
  | .rxLast d => rxClass el wc d == some .last
  | _ => true

/-- R126, R145 (`ROLE` column), R7: the ports an instance of this role has. -/
def Transfer.presentIn (r : Role) : Transfer → Bool
  | .payloadH2D _ _ | .decH2D _ | .encPrint _ | .sendText _ => r == .device
  | .payloadD2H _ _ | .decD2H _ | .encSetOutput _ | .sendBool _ => r == .host
  | .rxClass _ | .wireFrame _ | .feed _ | .rst | .encf _ | .dec _ | .rxstep _ => true

/-- The transfer that an opcode-table word stands for (log entry 6): up to 8 bits are one received byte (the
`rx-byte` rows), more are a Host-to-Device payload whose first byte is the most significant (R65 (3)). -/
def tableTransfer (nbits w : Nat) : Transfer :=
  if nbits ≤ 8 then .rxClass (BitVec.ofNat 8 w)
  else .payloadH2D (BitVec.ofNat 8 (w / 256)) [BitVec.ofNat 8 w]

/-- The instruction of an opcode-table word, in the parser state after reset (R23: Idle, so that an 8-bit word is
a length byte). -/
def decodeTableWord (nbits w : Nat) : Option Instr :=
  (decode 0#8 0#8 (tableTransfer nbits w)).toOption

end Sys2Proof
end

