-- ==== Sys2Proof/Machine/State.lean ====
section
/-! DEFINITION. The state: the block's own three elements (R10), the role it was built with (R7), and the boundary
to the environment (log entries 1, 13, 15); the faults and refusals of a step. -/

namespace Sys2Proof.Machine

/-- R13, R30: the bytes of `BUF` that something has written, as (index, byte), index rising. An index not listed has
no value of its own: nothing has written it since power-on (R23, log entry 3). -/
abbrev Memory := List Host.Cell

/-- R10: "The complete state of one instance of the block": exactly these three. -/
structure Parser where
  /-- `EL`, `expected_length` (R11) -/
  el : Byte
  /-- `WC`, `write_cursor` (R12) -/
  wc : Byte
  /-- `BUF`, `buffer` (R13) -/
  buf : Memory
deriving DecidableEq, Repr

/-- R18: "a result of one operation, valid for that operation only". -/
inductive OpResult where
  /-- no operation, or RESET, whose result is none (R190) -/
  | none
  /-- FEED, and its four classes (R80): `None` or `Some(p)` -/
  | fed (r : Option Bytes)
  /-- FRAME: what each of its `FEED`s returned, in order (R92, R94) -/
  | fedEach (rs : List (Option Bytes))
  /-- ENC (R112, R113) -/
  | encoded (p : Bytes)
  /-- ENCF (R100) -/
  | framed (r : EncfResult)
  /-- DEC and the payload rows (R114) -/
  | decoded (r : DecResult)
  /-- RXSTEP (R140): what its FEED returned, and its own result -/
  | rxstep (fed : Option Bytes) (r : RxResult)
  /-- SEND (R142) -/
  | send (r : SendResult)
deriving DecidableEq, Repr

/-- One instance and its boundary. Only `parser` is state of the block (R10). -/
structure State where
  /-- R7: build parameter; no operation writes it (log entry 2) -/
  role : Role
  /-- R10: the block's state -/
  parser : Parser
  /-- what the environment has offered and the block has not taken, first offered first (R30 (2), R38; log entry 5) -/
  pending : List Transfer
  /-- R18, R145: the result of the last operation -/
  result : OpResult
  /-- R41: the payload view: open on this many bytes of `BUF`, or closed (log entry 13) -/
  window : Option Byte
  /-- R201, R144: the `RXSTEP` results handed to the application, in order -/
  rxResults : List RxResult
  /-- R201, R30 (3): the frames written to the transport, in order -/
  txFrames : List Bytes
deriving DecidableEq, Repr

/-- Why the machine stops. The block has no fault of its own (R202). -/
inductive Fault where
  /-- A `BUF` index outside 0 to 254 (R31, R32). Raised by `memWrite` and `memRead`; safe: no step raises it. -/
  | bufIndex (i : Nat)
deriving DecidableEq, Repr

/-- Why there is no step. -/
inductive Refusal where
  /-- An instruction with no meaning yet; raised by `exec` alone; safe. -/
  | notModelled (mnemonic : String)
  /-- R15, R202, D17: `EL != 0` and `WC >= EL`; raised by every operation that feeds a byte, and by
  `step` for a received byte offered there; safe: unreachable. -/
  | unreachableState
  /-- R53, R65: the operand or the parser state is not in the row's pattern or condition; raised by the received-byte
  rows, the reserved payload rows and FRAME; safe: the decoder never gives such an instruction (log entry 8). -/
  | notThisRow
  /-- R142, R126: a message that is not of the instance's outbound type; raised by SEND; safe (log entry 12). -/
  | wrongDirection
  /-- R145, R126: a port that an instance of this role does not have; raised by `step`; safe (log entry 12). -/
  | portAbsent
deriving DecidableEq, Repr

/-- R23: Idle, cursor 0, `BUF` unspecified (nothing listed). -/
def Parser.reset : Parser := { el := 0#8, wc := 0#8, buf := [] }

/-- The instance of a role right after its first `RESET` (R23, R192), before anything is offered. -/
def State.resetAs (r : Role) : State :=
  { role := r, parser := Parser.reset, pending := [], result := .none, window := none, rxResults := [], txFrames := [] }

/-- R23, with the role of log entry 2. -/
def State.reset : State := State.resetAs Config.resetRole

end Sys2Proof.Machine
end

