-- ==== Sys2Proof/Machine/Ops.lean ====
section
/-! DEFINITION. The shared operations: the two memory primitives (R31), the one step of the parser and its four
classes (R80 to R84), feeding a sequence (R94), the results' recording, and what a decode failure does (R169). -/

namespace Sys2Proof.Machine

/-- What one operation answers. -/
abbrev Answer (α : Type) := Host.Outcome α Fault Refusal

/-- One operation after another; a stop stays a stop. -/
def andThen {α β : Type} (x : Answer α) (f : α → Answer β) : Answer β :=
  match x with
  | .next a => f a
  | .fault e => .fault e
  | .refused r => .refused r

/-! ### BUF -/

/-- The byte written last at index `i`, if any. -/
def Memory.at? (m : Memory) (i : Nat) : Option Byte :=
  match m with
  | [] => none
  | (j, v) :: rest => if i = j then some v else Memory.at? rest i

/-- Lists `v` at index `i`, keeping the indices rising. -/
def Memory.put (m : Memory) (i : Nat) (v : Byte) : Memory :=
  match m with
  | [] => [(i, v)]
  | (j, u) :: rest =>
    if i < j then (i, v) :: (j, u) :: rest
    else if i = j then (i, v) :: rest
    else (j, u) :: Memory.put rest i v

/-- The canonical form: indices strictly rising and inside `BUF`. An index not listed reads as no value, so no entry
can equal it. -/
abbrev Memory.wf (m : Memory) : Prop :=
  m.Pairwise (fun x y => x.1 < y.1) ∧ ∀ c ∈ m, c.1 < Config.bufCap

/-- `BUF[i]`: what was written there last, or the unspecified power-on byte (R23, U4: any value). -/
def bufByte (m : Memory) (i : Nat) : Byte := (m.at? i).getD (Config.bufPowerOn i)

/-- `BUF[0 .. n]`, lowest index first (R31). -/
def bufSlice (m : Memory) (n : Nat) : Bytes := (List.range n).map (bufByte m)

/-- R31 `MemWrite(BUF, i, 1, v)`: partial, never wrapping (R32). -/
def memWrite (m : Memory) (i : Nat) (v : Byte) : Answer Memory :=
  if i < Config.bufCap then .next (m.put i v) else .fault (.bufIndex i)

/-- R31 `MemRead(BUF, 0, n)`. -/
def memRead (m : Memory) (n : Nat) : Answer Bytes :=
  if n ≤ Config.bufCap then .next (bufSlice m n) else .fault (.bufIndex (n - 1))

/-! ### The parser's step -/

/-- R81 `RX.LEN0`. -/
def rxLen0Op (p : Parser) : Answer (Parser × Option Bytes) :=
  .next ({ p with el := 0#8, wc := 0#8 }, none)

/-- R82 `RX.LEN`. -/
def rxLenOp (p : Parser) (b : Byte) : Answer (Parser × Option Bytes) :=
  .next ({ p with el := b, wc := 0#8 }, none)

/-- R83 `RX.DATA`: a store at the old `WC`, then the increment. -/
def rxDataOp (p : Parser) (b : Byte) : Answer (Parser × Option Bytes) :=
  andThen (memWrite p.buf p.wc.toNat b) fun m => .next ({ p with wc := p.wc + 1#8, buf := m }, none)

/-- R84 `RX.LAST`: the payload is read after the store, with the old `EL`. -/
def rxLastOp (p : Parser) (b : Byte) : Answer (Parser × Option Bytes) :=
  andThen (memWrite p.buf p.wc.toNat b) fun m =>
    andThen (memRead m p.el.toNat) fun payload => .next ({ el := 0#8, wc := 0#8, buf := m }, some payload)

/-- R80 `FEED(b)` on the parser state. -/
def feedParser (p : Parser) (b : Byte) : Answer (Parser × Option Bytes) :=
  match rxClass p.el p.wc b with
  | some .len0 => rxLen0Op p
  | some .len => rxLenOp p b
  | some .data => rxDataOp p b
  | some .last => rxLastOp p b
  | none => .refused .unreachableState

/-- R94 `run(p, s)`, with the result of every `FEED` kept: `run`'s second component is `(…).filterMap id`. -/
def runFeeds (p : Parser) : Bytes → Answer (Parser × List (Option Bytes))
  | [] => .next (p, [])
  | b :: s =>
    andThen (feedParser p b) fun (p1, r) =>
      andThen (runFeeds p1 s) fun (p2, rs) => .next (p2, r :: rs)

/-- The payloads emitted, in order of emission (R94). -/
def emissions (rs : List (Option Bytes)) : List Bytes := rs.filterMap id

/-- R94 `parse(s)`: from the reset state. -/
def parse (s : Bytes) : List Bytes :=
  match runFeeds Parser.reset s with
  | .next (_, rs) => emissions rs
  | .fault _ => []
  | .refused _ => []

/-- R64 `strip_length(f) = f[1 .. |f|]`, "defined for `|f| >= 1`". DESIGN CHOICE: the empty sequence, of which R64 says
nothing, has no value here (log entry 23). -/
def stripLength (f : Bytes) : Option Bytes :=
  match f with
  | [] => none
  | _ :: payload => some payload

/-! ### Results and the boundary -/

/-- R18: the result of this operation replaces the last one's. -/
def record (s : State) (r : OpResult) : State := { s with result := r }

/-- R41: the view a `FEED` leaves: open on a payload it completed, else closed, since a `FEED` ends the last one's. -/
def windowOf (r : Option Bytes) : Option Byte := r.map lengthByte

/-- One `FEED` of the instance: the parser's step, and the view. -/
def feedState (s : State) (b : Byte) : Answer (State × Option Bytes) :=
  andThen (feedParser s.parser b) fun (p, r) => .next ({ s with parser := p, window := windowOf r }, r)

/-- R53: runs a received-byte row where the byte is of that class, and nowhere else. -/
def inClass (s : State) (b : Byte) (c : RxClass) (k : Answer State) : Answer State :=
  match rxClass s.parser.el s.parser.wc b with
  | some c' => if c' = c then k else .refused .notThisRow
  | none => .refused .unreachableState

/-- A received-byte row's outcome as the state's: parser, view and result. -/
def finishFeed (s : State) (x : Answer (Parser × Option Bytes)) : Answer State :=
  andThen x fun (p, r) => .next { s with parser := p, window := windowOf r, result := .fed r }

/-- R140, R144: the end of an `RXSTEP`: its result is handed to the application with it. -/
def handOver (s : State) (fed : Option Bytes) (r : RxResult) : State :=
  { s with result := .rxstep fed r, rxResults := s.rxResults ++ [r] }

/-- R169, the block's "trap entry": no state is saved, no vector is taken, no mode changes; `Failed(e)` goes to the
application and the parser stays as the completing `FEED` left it. R170: there is nothing to return from, so the
return is no operation: the next `RXSTEP` just follows. -/
def takeDecodeFailure (s : State) (payload : Bytes) (e : DecodeError) : State :=
  handOver s (some payload) (.failed e)

/-- R7, R126: whether a message is of the type an instance of this role sends. -/
def outboundOf (r : Role) (m : Message) : Bool :=
  match r, m with
  | .device, .d2h _ => true
  | .host, .h2d _ => true
  | .device, .h2d _ => false
  | .host, .d2h _ => false

end Sys2Proof.Machine
end

