-- ==== Sys2Proof/Machine/Operands.lean ====
section
/-! DEFINITION. The operand forms of the codec: the tag and the two field types, written (R111) and read left to
right in the order of the checks (R122), and the two schemas put together from them (R112, R113, R115, R116). -/

namespace Sys2Proof.Machine

/-- What reading one field gives: an error, or the value and the bytes after it. -/
inductive Field (α : Type) where
  | bad (e : DecodeError)
  | got (a : α) (rest : Bytes)
deriving DecidableEq, Repr

/-- R122 (1): the tag byte. -/
def readTag (p : Bytes) : Field Byte :=
  match p with
  | [] => .bad .truncated
  | t :: rest => .got t rest

/-- R56, R120: a bool field. -/
def readBool (p : Bytes) : Field Bool :=
  match p with
  | [] => .bad .truncated
  | x :: rest => if 1 < x.toNat then .bad .invalidBool else .got (x == 0x01#8) rest

/-- The text field after its length byte `n`: presence before validity (R116, R122 (3)). -/
def readTextBytes (n : Byte) (rest : Bytes) : Field Text :=
  if rest.length < n.toNat then .bad .truncated
  else
    match Text.ofBytes? (rest.take n.toNat) with
    | none => .bad .invalidUtf8
    | some t => .got t (rest.drop n.toNat)

/-- R57, R118, R119: a text field. -/
def readText (p : Bytes) : Field Text :=
  match p with
  | [] => .bad .truncated
  | n :: rest => readTextBytes n rest

/-- R121, R122 (4): nothing may be left over. -/
def finishMessage (m : Message) (rest : Bytes) : DecResult :=
  match rest with
  | [] => .ok m
  | _ :: _ => .err .trailingBytes

/-- R115: the `SetOutput` variant's one field, and then nothing. -/
def readSetOutput (fields : Bytes) : DecResult :=
  match readBool fields with
  | .bad e => .err e
  | .got v rest => finishMessage (.h2d (.setOutput v)) rest

/-- R116: the `Print` variant's one field, and then nothing. -/
def readPrint (fields : Bytes) : DecResult :=
  match readText fields with
  | .bad e => .err e
  | .got text rest => finishMessage (.d2h (.print text)) rest

/-- R115 `DEC_H2D`. -/
def decodeH2D (p : Bytes) : DecResult :=
  match readTag p with
  | .bad e => .err e
  | .got t fields =>
    if t = Config.tag then readSetOutput fields else .err .unknownTag

/-- R116 `DEC_D2H`. -/
def decodeD2H (p : Bytes) : DecResult :=
  match readTag p with
  | .bad e => .err e
  | .got t fields =>
    if t = Config.tag then readPrint fields else .err .unknownTag

/-- R110, R126 `DEC`: the arm the role selects. -/
def decodeFor (r : Role) (p : Bytes) : DecResult :=
  match r with
  | .device => decodeH2D p
  | .host => decodeD2H p

/-- R112 `ENC.SetOutput`. -/
def encodeSetOutput (v : Bool) : Bytes := [Config.tag, boolByte v]

/-- R113 `ENC.Print`. -/
def encodePrint (t : Text) : Bytes := Config.tag :: lengthByte t.bytes :: t.bytes

/-- R111 `ENC`. -/
def encodeMessage (m : Message) : Bytes :=
  match m with
  | .h2d (.setOutput v) => encodeSetOutput v
  | .d2h (.print t) => encodePrint t

/-- R100 `ENCF`: the length is compared as a natural number before it is narrowed (R104). -/
def encodeFrame (p : Bytes) : EncfResult :=
  if Config.txMaxPayload < p.length then .err .oversize else .ok (lengthByte p :: p)

end Sys2Proof.Machine
end

