-- ==== Sys2Proof/Machine/Flags.lean ====
section
/-! DEFINITION. The block has no flags (R18). What it reports, it reports with the operation, at the output ports of
R145: the codes of R161 and each port as a function of the last result and the open view. -/

namespace Sys2Proof.Machine

/-- R161: `dec_err`. -/
def decErrCode : DecodeError → BitVec 3
  | .unknownTag => 1#3
  | .truncated => 2#3
  | .invalidUtf8 => 3#3
  | .invalidBool => 4#3
  | .trailingBytes => 5#3

/-- R161: `tx_err`. -/
def txErrCode : EncodeError → BitVec 1
  | .oversize => 1#1

/-- The payload that the last byte fed completed, if the operation fed one and it did (event E1 of R167). -/
def completed (r : OpResult) : Option Bytes :=
  match r with
  | .fed p => p
  | .rxstep p _ => p
  | .fedEach rs => rs.getLast?.join
  | .none | .encoded _ | .framed _ | .decoded _ | .send _ => none

/-- What `DEC` says of the completed payload, with `frame_done` and only then (R145; event E2 of R167 in an `RXSTEP`). A
`DEC` used on its own drives no port: its result is its result. -/
def rxOutcome (s : State) : Option DecResult := (completed s.result).map (decodeFor s.role)

/-- `frame_done` (R145). -/
def frameDone (s : State) : Bool := (completed s.result).isSome

/-- `frame_len` (R145): driven with `frame_done`. -/
def frameLen (s : State) : Option Byte := (completed s.result).map lengthByte

/-- `msg_valid` (R145): with `frame_done`, `DEC` of the payload returned `Ok`. -/
def msgValid (s : State) : Bool :=
  match rxOutcome s with
  | some (.ok _) => true
  | some (.err _) => false
  | none => false

/-- `msg_bool` (R145): driven with `msg_valid` for a `SetOutput`. -/
def msgBool (s : State) : Option Bool :=
  match rxOutcome s with
  | some (.ok (.h2d (.setOutput v))) => some v
  | some (.ok (.d2h _)) => none
  | some (.err _) => none
  | none => none

/-- `msg_text_len` (R145): driven with `msg_valid` for a `Print`. -/
def msgTextLen (s : State) : Option Byte :=
  match rxOutcome s with
  | some (.ok (.d2h (.print t))) => some (lengthByte t.bytes)
  | some (.ok (.h2d _)) => none
  | some (.err _) => none
  | none => none

/-- `dec_err` (R145, R161): with `frame_done`, 0 if `msg_valid`, else the error's code. -/
def decErr (s : State) : Option (BitVec 3) :=
  match rxOutcome s with
  | some (.ok _) => some 0#3
  | some (.err e) => some (decErrCode e)
  | none => none

/-- The frame handed to the transport or to the direct user of `ENCF` (`tx_byte` in order, `tx_last` on the last). -/
def txFrame (s : State) : Option Bytes :=
  match s.result with
  | .framed (.ok f) => some f
  | .send (.sent f) => some f
  | .framed (.err _) | .send (.failed _) => none
  | .none | .fed _ | .fedEach _ | .encoded _ | .decoded _ | .rxstep _ _ => none

/-- `tx_byte` and `tx_last` (R145): the bytes of that frame in order, the last one marked. -/
def txTransfers (f : Bytes) : List (Byte × Bool) :=
  match f with
  | [] => []
  | [b] => [(b, true)]
  | b :: c :: rest => (b, false) :: txTransfers (c :: rest)

/-- `tx_err` (R145): the `SEND` or `ENCF` was refused with `Oversize`. -/
def txErr (s : State) : BitVec 1 :=
  match s.result with
  | .framed (.err e) => txErrCode e
  | .send (.failed e) => txErrCode e
  | .framed (.ok _) | .send (.sent _) => 0#1
  | .none | .fed _ | .fedEach _ | .encoded _ | .decoded _ | .rxstep _ _ => 0#1

/-- `rx_ready` (R145): "constant 1 outside reset". -/
def rxReady (_ : State) : Bool := true

/-- `pl_data` (R145, R41): `BUF[pl_addr]` inside the open view; no value outside it (U17, log entry 13). -/
def plData (s : State) (addr : Byte) : Option Byte :=
  match s.window with
  | some l => if addr.toNat < l.toNat then some (bufByte s.parser.buf addr.toNat) else none
  | none => none

/-- R41: the completed payload as the view shows it, while the view is open. -/
def payloadView (s : State) : Option Bytes := s.window.map fun l => bufSlice s.parser.buf l.toNat

/-- The bytes of the RX stream that are waiting to be fed (R30 (2)). -/
def rxStream (s : State) : Bytes :=
  s.pending.flatMap fun t =>
    match t with
    | .rxClass _ | .wireFrame _ | .feed _ | .rxstep _ => t.data
    | .payloadH2D _ _ | .payloadD2H _ _ | .rst | .encf _ | .encSetOutput _ | .encPrint _ | .dec _ | .decH2D _ | .decD2H _
    | .sendBool _ | .sendText _ => []

/-- The TX stream (R30 (3), R45): the bytes written, whole frames one after the other. -/
def txStream (s : State) : Bytes := s.txFrames.flatten

end Sys2Proof.Machine
end

