-- ==== Sys2Proof/Machine/Codec.lean ====
section
/-! DEFINITION. The frame encoder and the codec: ENCF (R100), ENC (R112, R113), the payload rows the demultiplexer
dispatches to (R114 to R121) and DEC with its two arms. None touches the parser (R16, R103, R123). -/

namespace Sys2Proof.Machine

/-- H2D.SetOutput, R115 and R58: the tag is in the row; the field checks are the rule's. -/
def execH2dSetOutput (v : Option Bool) (rest : Bytes) (s : State) : Answer State :=
  .next (record s (.decoded (readSetOutput (fieldBytes (v.map boolByte) rest))))

/-- H2D.SetOutput.badbool, R120: whatever follows (R122). -/
def execH2dBadBool (x : Byte) (_rest : Bytes) (s : State) : Answer State :=
  if 1 < x.toNat then .next (record s (.decoded (.err .invalidBool))) else .refused .notThisRow

/-- H2D.reserved-tag, R117: whatever follows. -/
def execH2dReservedTag (t : Byte) (_rest : Bytes) (s : State) : Answer State :=
  if t = Config.tag then .refused .notThisRow else .next (record s (.decoded (.err .unknownTag)))

/-- D2H.Print, R116 and R59: the tag is in the row; the field checks are the rule's. -/
def execD2hPrint (n : Option Byte) (rest : Bytes) (s : State) : Answer State :=
  .next (record s (.decoded (readPrint (fieldBytes n rest))))

/-- D2H.reserved-tag, R117: whatever follows. -/
def execD2hReservedTag (t : Byte) (_rest : Bytes) (s : State) : Answer State :=
  if t = Config.tag then .refused .notThisRow else .next (record s (.decoded (.err .unknownTag)))

/-- ENCF, R100: a result, and nothing else. -/
def execEncf (p : Bytes) (s : State) : Answer State := .next (record s (.framed (encodeFrame p)))

/-- ENC.SetOutput, R112. -/
def execEncSetOutput (v : Bool) (s : State) : Answer State := .next (record s (.encoded (encodeSetOutput v)))

/-- ENC.Print, R113. -/
def execEncPrint (t : Text) (s : State) : Answer State := .next (record s (.encoded (encodePrint t)))

/-- DEC, R114 and R126: the arm of the instance's role. -/
def execDec (p : Bytes) (s : State) : Answer State := .next (record s (.decoded (decodeFor s.role p)))

/-- DEC_H2D, R115. -/
def execDecH2D (p : Bytes) (s : State) : Answer State := .next (record s (.decoded (decodeH2D p)))

/-- DEC_D2H, R116. -/
def execDecD2H (p : Bytes) (s : State) : Answer State := .next (record s (.decoded (decodeD2H p)))

end Sys2Proof.Machine
end

