-- ==== Sys2Proof/Machine/ParserOps.lean ====
section
/-! DEFINITION. The frame parser's instructions: the four received-byte rows (R81 to R84), FRAME (R50), FEED (R80)
and RESET (R190). -/

namespace Sys2Proof.Machine

/-- RX.LEN0, R81. -/
def execRxLen0 (s : State) : Answer State :=
  inClass s 0x00#8 .len0 (finishFeed s (rxLen0Op s.parser))

/-- RX.LEN, R82. -/
def execRxLen (l : Byte) (s : State) : Answer State :=
  inClass s l .len (finishFeed s (rxLenOp s.parser l))

/-- RX.DATA, R83. -/
def execRxData (d : Byte) (s : State) : Answer State :=
  inClass s d .data (finishFeed s (rxDataOp s.parser d))

/-- RX.LAST, R84. -/
def execRxLast (d : Byte) (s : State) : Answer State :=
  inClass s d .last (finishFeed s (rxLastOp s.parser d))

/-- FRAME, R50: the wire bytes of one frame are fed in order, `L + 1` times `FEED` (R62, R92, R94; log entry 10). -/
def execFrame (l : Byte) (payload : Bytes) (s : State) : Answer State :=
  if payload.length = l.toNat then
    andThen (runFeeds s.parser (l :: payload)) fun (p, rs) =>
      .next { s with parser := p, window := windowOf rs.getLast?.join, result := .fedEach rs }
  else .refused .notThisRow

/-- FEED, R80. -/
def execFeed (b : Byte) (s : State) : Answer State :=
  andThen (feedState s b) fun (s1, r) => .next (record s1 (.fed r))

/-- RESET, R190: `BUF` is not written. -/
def execReset (s : State) : Answer State :=
  .next (record { s with parser := { s.parser with el := 0#8, wc := 0#8 } } .none)

end Sys2Proof.Machine
end

