-- ==== Sys2Proof/Machine/Pipeline.lean ====
section
/-! DEFINITION. The endpoint pipeline: RXSTEP (R140) and SEND (R142). -/

namespace Sys2Proof.Machine

/-- RXSTEP, R140: the decode of a completed payload belongs to the same step. -/
def execRxstep (b : Byte) (s : State) : Answer State :=
  andThen (feedState s b) fun (s1, r) =>
    match r with
    | none => .next (handOver s1 none .nothing)
    | some payload =>
      match decodeFor s1.role payload with
      | .ok m => .next (handOver s1 (some payload) (.delivered m))
      | .err e => .next (takeDecodeFailure s1 payload e)

/-- SEND, R142: `write_bytes` of the whole frame, or nothing at all. -/
def execSend (m : Message) (s : State) : Answer State :=
  if outboundOf s.role m then
    match encodeFrame (encodeMessage m) with
    | .ok f => .next { s with result := .send (.sent f), txFrames := s.txFrames ++ [f] }
    | .err e => .next { s with result := .send (.failed e) }
  else .refused .wrongDirection

end Sys2Proof.Machine
end

