-- ==== Sys2Proof/Machine/Dispatch.lean ====
section
/-! DEFINITION. One arm per instruction. -/

namespace Sys2Proof.Machine

def exec (i : Instr) (s : State) : Host.Outcome State Fault Refusal :=
  match i with
  | .rxLen0 => Sys2Proof.Machine.execRxLen0 s
  | .rxLen l => Sys2Proof.Machine.execRxLen l s
  | .rxData d => Sys2Proof.Machine.execRxData d s
  | .rxLast d => Sys2Proof.Machine.execRxLast d s
  | .frame l payload => Sys2Proof.Machine.execFrame l payload s
  | .h2dSetOutput v rest => Sys2Proof.Machine.execH2dSetOutput v rest s
  | .h2dBadBool x rest => Sys2Proof.Machine.execH2dBadBool x rest s
  | .h2dReservedTag t rest => Sys2Proof.Machine.execH2dReservedTag t rest s
  | .d2hPrint n rest => Sys2Proof.Machine.execD2hPrint n rest s
  | .d2hReservedTag t rest => Sys2Proof.Machine.execD2hReservedTag t rest s
  | .feed b => Sys2Proof.Machine.execFeed b s
  | .reset => Sys2Proof.Machine.execReset s
  | .encf p => Sys2Proof.Machine.execEncf p s
  | .encSetOutput v => Sys2Proof.Machine.execEncSetOutput v s
  | .encPrint t => Sys2Proof.Machine.execEncPrint t s
  | .dec p => Sys2Proof.Machine.execDec p s
  | .decH2D p => Sys2Proof.Machine.execDecH2D p s
  | .decD2H p => Sys2Proof.Machine.execDecD2H p s
  | .rxstep b => Sys2Proof.Machine.execRxstep b s
  | .send m => Sys2Proof.Machine.execSend m s

end Sys2Proof.Machine
end

