-- ==== Sys2Proof/Machine/Step.lean ====
section
/-! DEFINITION. One step: the first operation offered is taken, decoded in the parser's state (R17) and run. -/

namespace Sys2Proof.Machine

/-- With nothing offered the block is quiescent (R88, R190, R201) and only the last result ends (R18; log entry 14). -/
def step (s : State) : Host.Outcome State Fault Refusal :=
  match s.pending with
  | [] => .next (record s .none)
  | t :: rest =>
    if t.presentIn s.role then
      match decode s.parser.el s.parser.wc t with
      | .ok i => exec i { s with pending := rest }
      | .error .noRxClass => .refused .unreachableState
    else .refused .portAbsent

/-- Offers the opcode-table word next, before what is already pending (log entries 5 and 6). -/
def State.withFetchWord (s : State) (nbits w : Nat) : State :=
  { s with pending := tableTransfer nbits w :: s.pending }

end Sys2Proof.Machine
end

