-- ==== Sys2Proof/Safety.lean ====
section
/-! DEFINITION. The terms claims are stated in: the invariant of R15, what a safe step and run are (R177, R202),
the spec's own wording of valid UTF-8 (R119), feeding in chunks (R91), and the premises of R146. -/

namespace Sys2Proof

/-- The instructions that feed a byte to the parser or reset it: FEED in all its forms, and RESET (R16). -/
def Instr.writesParser : Instr → Bool
  | .rxLen0 | .rxLen _ | .rxData _ | .rxLast _ | .frame _ _ | .feed _ | .reset | .rxstep _ => true
  | .h2dSetOutput _ _ | .h2dBadBool _ _ | .h2dReservedTag _ _ | .d2hPrint _ _ | .d2hReservedTag _ _ | .encf _
  | .encSetOutput _ | .encPrint _ | .dec _ | .decH2D _ | .decD2H _ | .send _ => false

end Sys2Proof

namespace Sys2Proof.Machine

/-- R15 (I1), (I2): the reachable pairs (`EL`, `WC`). -/
def Parser.InFrame (p : Parser) : Prop :=
  (p.el = 0#8 → p.wc = 0#8) ∧ (p.el ≠ 0#8 → p.wc.toNat < p.el.toNat)

/-- R15: the invariant of the parser. `written` is what one state can show of (I4): the bytes below the cursor are
bytes something stored. -/
structure Parser.Inv (p : Parser) : Prop where
  inFrame : p.InFrame
  canonical : p.buf.wf
  written : ∀ i, i < p.wc.toNat → (p.buf.at? i).isSome

/-- R15 and R41: an open view belongs to a completed payload, so the parser is Idle and all its bytes were stored. -/
structure State.Inv (s : State) : Prop where
  parser : s.parser.Inv
  view : ∀ l, s.window = some l → l ≠ 0#8 ∧ s.parser.el = 0#8 ∧ ∀ i, i < l.toNat → (s.parser.buf.at? i).isSome

/-- R14: Idle, no frame in progress. -/
def Parser.Idle (p : Parser) : Prop := p.el = 0#8 ∧ p.wc = 0#8

/-- R30: every byte of `BUF` is the same in both. -/
def SameBuf (p q : Parser) : Prop := ∀ a, bufByte q.buf a = bufByte p.buf a

/-- The boundary an operation of the parser leaves alone: the role, what is pending, what was handed over. -/
def SameBoundary (s t : State) : Prop :=
  t.role = s.role ∧ t.pending = s.pending ∧ t.rxResults = s.rxResults ∧ t.txFrames = s.txFrames

/-- A step that ends in a next state. -/
def SafeStep (s : State) : Prop := ∃ t, step s = .next t

/-- R202: a safe run of `n` steps meets neither a fault nor a refusal. -/
def SafeRun (n : Nat) (s : State) : Prop := ∃ t, Host.Core.run Sys2Proof.core n s = .next t

/-- R127: representable: the encoding frames. -/
def Representable (m : Message) : Prop := (encodeMessage m).length ≤ Config.txMaxPayload

/-- R114: the decoder of the direction a message belongs to. -/
def decodeLike (m : Message) : Bytes → DecResult :=
  match m with
  | .h2d _ => decodeH2D
  | .d2h _ => decodeD2H

/-- R119: one well-formed sequence: byte `k` in the `k`-th range of one row. -/
def WellFormedSeq (s : Bytes) : Prop := ∃ row ∈ utf8Table, List.Forall₂ (fun r b => inRange r b = true) row s

/-- R119, the definition in its own words: "a concatenation of zero or more well-formed sequences". -/
def ConcatOfWellFormed (t : Bytes) : Prop := ∃ ss : List Bytes, (∀ s ∈ ss, WellFormedSeq s) ∧ t = ss.flatten

/-- R91: chunks handed over one after the other. -/
def feedChunks (p : Parser) : List Bytes → Answer (Parser × List (Option Bytes))
  | [] => .next (p, [])
  | c :: cs =>
    andThen (runFeeds p c) fun (p1, rs) =>
      andThen (feedChunks p1 cs) fun (p2, rs2) => .next (p2, rs ++ rs2)

/-- `FEED` instructions one after the other. -/
def execFeeds (s : State) : Bytes → Answer State
  | [] => .next s
  | b :: bs => andThen (exec (.feed b) s) fun s1 => execFeeds s1 bs

/-- `RXSTEP` instructions one after the other. -/
def execRxsteps (s : State) : Bytes → Answer State
  | [] => .next s
  | b :: bs => andThen (exec (.rxstep b) s) fun s1 => execRxsteps s1 bs

/-- R142: the transfer by which the application offers a message to SEND. -/
def sendTransfer : Message → Transfer
  | .h2d (.setOutput v) => .sendBool v
  | .d2h (.print t) => .sendText t

/-- R146 SyncStart: the receiver's parser is Idle when the first byte arrives. -/
def SyncStart (receiver : State) : Prop := receiver.parser.Idle

/-- R146 IdealLink: the bytes the receiver's `RXSTEP`s are given are the sender's frames, in order, and no others. -/
def IdealLink (frames : List Bytes) (receiver : State) : Prop :=
  receiver.pending = frames.flatten.map Transfer.rxstep

/-- The `RXSTEP` results of one frame that carries `m`: nothing until its last byte (R146). -/
def deliveryOf (m : Message) : List RxResult :=
  List.replicate (encodeMessage m).length .nothing ++ [.delivered m]

end Sys2Proof.Machine
end

