-- ==== Sys2Proof/Certificates/Slice0/Obligations.lean ====
section
/-! DEFINITION. The statements for the provers, from the spec's numbered rules. -/

open Sys2Proof Sys2Proof.Machine

/-! ### Encodings -/

/-- R53, R65: no operand of a well-formed instruction is lost: a transfer offers it and decodes to it, in a parser state in
which a received-byte row is of its class. -/
def Obligations.DecodeOfEncode : Prop :=
  ∀ (i : Instr) (el wc : Byte), i.wellFormed = true → i.inMode el wc = true →
    ∃ x, encode i = some x ∧ decode el wc x = .ok i

/-- R65: what decodes is a well-formed instruction in its class, and only its own transfer decodes to it. -/
def Obligations.EncodeOfDecode : Prop :=
  ∀ (el wc : Byte) (x : Transfer) (i : Instr), decode el wc x = .ok i →
    i.wellFormed = true ∧ i.inMode el wc = true ∧ encode i = some x

/-- Words written out from R53's table, R50, R58, R59, R60, R65 and R120, and the instructions they stand for. -/
def Obligations.SpecWordsDecode : Prop :=
  decode 0x00#8 0x00#8 (.rxClass 0b00000000#8) = .ok .rxLen0 ∧
  decode 0x00#8 0x00#8 (.rxClass 0b00000010#8) = .ok (.rxLen 2#8) ∧
  decode 0x02#8 0x00#8 (.rxClass 0b00000000#8) = .ok (.rxData 0#8) ∧
  decode 0x02#8 0x01#8 (.rxClass 0b00000001#8) = .ok (.rxLast 1#8) ∧
  (∀ p : FramePayload, p.bytes = [0x00#8, 0x01#8] →
    decode 0x00#8 0x00#8 (.wireFrame p) = .ok (.frame 0b00000010#8 [0x00#8, 0x01#8])) ∧
  decode 0x00#8 0x00#8 (.payloadH2D 0b00000000#8 [0b00000001#8]) = .ok (.h2dSetOutput (some true) []) ∧
  decode 0x00#8 0x00#8 (.payloadH2D 0b00000000#8 []) = .ok (.h2dSetOutput none []) ∧
  decode 0x00#8 0x00#8 (.payloadH2D 0b00000000#8 [0b00000010#8]) = .ok (.h2dBadBool 2#8 []) ∧
  decode 0x00#8 0x00#8 (.payloadH2D 0b00000111#8 [0b00000001#8]) = .ok (.h2dReservedTag 7#8 [1#8]) ∧
  decode 0x00#8 0x00#8 (.payloadD2H 0x00#8 [0x02#8, 0x68#8, 0x69#8]) = .ok (.d2hPrint (some 2#8) [0x68#8, 0x69#8]) ∧
  decode 0x00#8 0x00#8 (.payloadD2H 0x00#8 []) = .ok (.d2hPrint none []) ∧
  decode 0x00#8 0x00#8 (.payloadD2H 0b00000101#8 []) = .ok (.d2hReservedTag 5#8 [])

/-- The model's choice of log entries 5 and 6: an opcode-table word is offered so that it runs first, in the state
after reset and with nothing else changed. -/
def Obligations.TableWordRunsFirst : Prop :=
  ∀ (nbits w : Nat) (i : Instr), decodeTableWord nbits w = some i →
    step (State.reset.withFetchWord nbits w) = exec i State.reset

/-- R53: the four conditions, each deciding its class; exclusive, and on reachable states exhaustive. -/
def Obligations.ReceivedByteClasses : Prop :=
  ∀ el wc b : Byte,
    (rxClass el wc b = some .len0 ↔ el = 0#8 ∧ b = 0#8) ∧
    (rxClass el wc b = some .len ↔ el = 0#8 ∧ b ≠ 0#8) ∧
    (rxClass el wc b = some .data ↔ el ≠ 0#8 ∧ wc.toNat < el.toNat - 1) ∧
    (rxClass el wc b = some .last ↔ el ≠ 0#8 ∧ wc.toNat = el.toNat - 1) ∧
    (∀ m : Memory, Parser.InFrame ⟨el, wc, m⟩ → rxClass el wc b ≠ none)

/-! ### Reset -/

/-- R23, for an instance of either role. That an unspecified byte reads as the free value is the model's rendering
(log entry 3). -/
def Obligations.ResetValues : Prop :=
  ∀ r : Role, (State.resetAs r).role = r ∧ (State.resetAs r).parser.el = 0#8 ∧ (State.resetAs r).parser.wc = 0#8 ∧
    ∀ i, bufByte (State.resetAs r).parser.buf i = Config.bufPowerOn i

/-- R190: the operation, in any state, and that the next byte is read as a length byte. -/
def Obligations.ResetOperation : Prop :=
  ∀ s : State, ∃ t, exec .reset s = .next t ∧ t.parser.el = 0#8 ∧ t.parser.wc = 0#8 ∧ t.parser.buf = s.parser.buf ∧
    t.result = .none ∧
    ∀ b, ∃ u, exec (.feed b) t = .next u ∧ u.parser.el = b ∧ u.parser.wc = 0#8 ∧ u.result = .fed none

/-! ### The frame parser -/

/-- R81. -/
def Obligations.RxLen0Result : Prop :=
  ∀ s : State, s.parser.el = 0#8 →
    ∃ t, exec .rxLen0 s = .next t ∧ t.parser.el = 0#8 ∧ t.parser.wc = 0#8 ∧ t.parser.buf = s.parser.buf ∧
      t.result = .fed none ∧ SameBoundary s t

/-- R82: every value 1 to 255 is taken. -/
def Obligations.RxLenResult : Prop :=
  ∀ (s : State) (b : Byte), s.parser.el = 0#8 → b ≠ 0#8 →
    ∃ t, exec (.rxLen b) s = .next t ∧ t.parser.el = b ∧ t.parser.wc = 0#8 ∧ t.parser.buf = s.parser.buf ∧
      t.result = .fed none ∧ SameBoundary s t

/-- R83: the store is at the old `WC`; `WC` does not wrap; no other byte of `BUF` changes. -/
def Obligations.RxDataResult : Prop :=
  ∀ (s : State) (b : Byte), s.parser.el ≠ 0#8 → s.parser.wc.toNat < s.parser.el.toNat - 1 →
    ∃ t, exec (.rxData b) s = .next t ∧ t.parser.el = s.parser.el ∧ t.parser.wc.toNat = s.parser.wc.toNat + 1 ∧
      bufByte t.parser.buf s.parser.wc.toNat = b ∧
      (∀ a, a ≠ s.parser.wc.toNat → bufByte t.parser.buf a = bufByte s.parser.buf a) ∧
      t.result = .fed none ∧ SameBoundary s t

/-- R84: the payload has the old `EL`'s length, the bytes stored before and the byte just received; then Idle. -/
def Obligations.RxLastResult : Prop :=
  ∀ (s : State) (b : Byte), s.parser.el ≠ 0#8 → s.parser.wc.toNat = s.parser.el.toNat - 1 →
    ∃ t p, exec (.rxLast b) s = .next t ∧ t.result = .fed (some p) ∧ p.length = s.parser.el.toNat ∧
      (∀ i, i < s.parser.el.toNat - 1 → p[i]? = some (bufByte s.parser.buf i)) ∧
      p[s.parser.el.toNat - 1]? = some b ∧ t.parser.el = 0#8 ∧ t.parser.wc = 0#8 ∧
      bufByte t.parser.buf s.parser.wc.toNat = b ∧
      (∀ a, a ≠ s.parser.wc.toNat → bufByte t.parser.buf a = bufByte s.parser.buf a) ∧ SameBoundary s t

/-- R80: FEED is the class's row; it answers for every byte in every reachable state, and writes at most one byte of
`BUF`. -/
def Obligations.FeedDispatchesToItsClass : Prop :=
  ∀ (s : State) (b : Byte),
    (s.parser.el = 0#8 → b = 0#8 → exec (.feed b) s = exec .rxLen0 s) ∧
    (s.parser.el = 0#8 → b ≠ 0#8 → exec (.feed b) s = exec (.rxLen b) s) ∧
    (s.parser.el ≠ 0#8 → s.parser.wc.toNat < s.parser.el.toNat - 1 → exec (.feed b) s = exec (.rxData b) s) ∧
    (s.parser.el ≠ 0#8 → s.parser.wc.toNat = s.parser.el.toNat - 1 → exec (.feed b) s = exec (.rxLast b) s) ∧
    (s.parser.InFrame → ∃ t r, exec (.feed b) s = .next t ∧ t.result = .fed r ∧ SameBoundary s t ∧
      (∀ p, r = some p → 1 ≤ p.length ∧ p.length ≤ 255) ∧
      ∀ a, a ≠ s.parser.wc.toNat → bufByte t.parser.buf a = bufByte s.parser.buf a)

/-- R53, R65 and the model's choice of log entry 8: a row outside its own condition or pattern has no step. -/
def Obligations.RowsStopOutsideTheirCondition : Prop :=
  ∀ (s : State) (b : Byte) (rest : Bytes),
    (s.parser.el ≠ 0#8 → s.parser.wc.toNat < s.parser.el.toNat →
      exec .rxLen0 s = .refused .notThisRow ∧ exec (.rxLen b) s = .refused .notThisRow) ∧
    (s.parser.el = 0#8 → exec (.rxLen 0#8) s = .refused .notThisRow ∧
      exec (.rxData b) s = .refused .notThisRow ∧ exec (.rxLast b) s = .refused .notThisRow) ∧
    (s.parser.el ≠ 0#8 → s.parser.wc.toNat = s.parser.el.toNat - 1 → exec (.rxData b) s = .refused .notThisRow) ∧
    (s.parser.el ≠ 0#8 → s.parser.wc.toNat < s.parser.el.toNat - 1 → exec (.rxLast b) s = .refused .notThisRow) ∧
    (rest.length ≠ b.toNat → exec (.frame b rest) s = .refused .notThisRow) ∧
    (b.toNat ≤ 1 → exec (.h2dBadBool b rest) s = .refused .notThisRow) ∧
    exec (.h2dReservedTag 0#8 rest) s = .refused .notThisRow ∧
    exec (.d2hReservedTag 0#8 rest) s = .refused .notThisRow

/-- R15, R202, D17: past the declared length no feeding instruction has a step. -/
def Obligations.NoStepPastDeclaredLength : Prop :=
  ∀ (s : State) (b : Byte) (rest : Bytes), s.parser.el ≠ 0#8 → s.parser.el.toNat ≤ s.parser.wc.toNat →
    exec (.feed b) s = .refused .unreachableState ∧ exec (.rxstep b) s = .refused .unreachableState ∧
    exec .rxLen0 s = .refused .unreachableState ∧ exec (.rxLen b) s = .refused .unreachableState ∧
    exec (.rxData b) s = .refused .unreachableState ∧ exec (.rxLast b) s = .refused .unreachableState ∧
    (rest.length = b.toNat → exec (.frame b rest) s = .refused .unreachableState)

/-- R93: what a completing FEED emits is the frame's bytes out of `BUF`, 1 to 255 of them, and the parser is Idle. -/
def Obligations.EmittedPayload : Prop :=
  ∀ (s t : State) (b : Byte) (p : Bytes), exec (.feed b) s = .next t → t.result = .fed (some p) →
    1 ≤ p.length ∧ p.length ≤ 255 ∧ p.length = s.parser.el.toNat ∧ p.getLast? = some b ∧
    p = bufSlice t.parser.buf p.length ∧ t.parser.Idle

/-- R94: `run` composes; a length byte and that many bytes emit exactly them; a zero byte emits nothing; `parse` starts
from the reset state. -/
def Obligations.RunOfFrames : Prop :=
  (∀ (p q u : Parser) (s t : Bytes) (rs qs : List (Option Bytes)), runFeeds p s = .next (q, rs) →
    runFeeds q t = .next (u, qs) → runFeeds p (s ++ t) = .next (u, rs ++ qs)) ∧
  (∀ (p : Parser) (payload : Bytes), p.Idle → 1 ≤ payload.length → payload.length ≤ 255 →
    ∃ q rs, runFeeds p (BitVec.ofNat 8 payload.length :: payload) = .next (q, rs) ∧ q.Idle ∧ emissions rs = [payload]) ∧
  (∀ p : Parser, p.Idle → ∃ rs, runFeeds p [0x00#8] = .next (p, rs) ∧ emissions rs = []) ∧
  (∀ (s : Bytes) (q : Parser) (rs : List (Option Bytes)), runFeeds Parser.reset s = .next (q, rs) →
    parse s = emissions rs)

/-- R62, R92: FRAME runs in every reachable state, one FEED for each of its `L + 1` bytes; from Idle it emits exactly
its payload, stores it at index 0 on, touches no other byte of `BUF`, and is back in Idle. -/
def Obligations.FrameRowResult : Prop :=
  ∀ (s : State) (l : Byte) (payload : Bytes), payload.length = l.toNat → s.parser.InFrame →
    ∃ t rs, exec (.frame l payload) s = .next t ∧ t.result = .fedEach rs ∧ rs.length = l.toNat + 1 ∧
      SameBoundary s t ∧
      (s.parser.el = 0#8 → t.parser.Idle ∧ emissions rs = (if l = 0#8 then [] else [payload]) ∧
        bufSlice t.parser.buf l.toNat = payload ∧
        ∀ a, l.toNat ≤ a → bufByte t.parser.buf a = bufByte s.parser.buf a)

/-- R91, R94: FRAME is its bytes' FEEDs one after the other, in any state. -/
def Obligations.FrameRowIsItsFeeds : Prop :=
  ∀ (s t : State) (l : Byte) (payload : Bytes), exec (.frame l payload) s = .next t →
    ∃ u, execFeeds s (l :: payload) = .next u ∧ u.parser = t.parser ∧ u.window = t.window ∧ SameBoundary u t

/-- R95: any number of frames the encoder built, fed from Idle, give back their payloads and leave the parser Idle; the
empty payload's frame emits nothing. -/
def Obligations.FramingInverse : Prop :=
  (∀ (p : Parser) (ps fs : List Bytes), p.Idle → (∀ x ∈ ps, 1 ≤ x.length ∧ x.length ≤ 254) →
    ps.map encodeFrame = fs.map EncfResult.ok →
    ∃ q rs, runFeeds p fs.flatten = .next (q, rs) ∧ q.Idle ∧ emissions rs = ps) ∧
  (∀ ps fs : List Bytes, (∀ x ∈ ps, 1 ≤ x.length ∧ x.length ≤ 254) → ps.map encodeFrame = fs.map EncfResult.ok →
    parse fs.flatten = ps) ∧
  (∀ p : Parser, p.Idle → ∃ f rs, encodeFrame [] = .ok f ∧ runFeeds p f = .next (p, rs) ∧ emissions rs = [])

/-- R91: from Idle, frames of any number and length, cut into chunks anywhere (inside a frame, or across the end of one and
the start of the next), emit each payload at its frame's last byte and nothing before it; the parser is Idle again. -/
def Obligations.FramesCutAnywhereEmitAtLastByte : Prop :=
  ∀ (p : Parser) (ps cs : List Bytes), p.Idle → (∀ x ∈ ps, 1 ≤ x.length ∧ x.length ≤ 255) →
    cs.flatten = ps.flatMap (fun x => BitVec.ofNat 8 x.length :: x) →
    ∃ q, feedChunks p cs = .next (q, ps.flatMap fun x => List.replicate x.length none ++ [some x]) ∧ q.Idle

/-- R15 (I4), R88: while a frame is accumulating, `EL` holds its length, `WC` counts the bytes fed since, `BUF` holds
them in order, and nothing has been emitted. -/
def Obligations.BufferHoldsFrameInProgress : Prop :=
  ∀ (p : Parser) (l : Byte) (ds : Bytes), p.Idle → ds.length < l.toNat →
    ∃ q rs, runFeeds p (l :: ds) = .next (q, rs) ∧ q.el = l ∧ q.wc.toNat = ds.length ∧
      bufSlice q.buf ds.length = ds ∧ emissions rs = [] ∧
      ∀ a, ds.length ≤ a → bufByte q.buf a = bufByte p.buf a

/-- R22, R23: two parsers alike in `EL`, `WC` and the current frame's bytes answer every stream alike, whatever else
`BUF` holds: stale and unspecified bytes are never observable. -/
def Obligations.StaleBytesAreUnobservable : Prop :=
  ∀ (p q p' : Parser) (s : Bytes) (rs : List (Option Bytes)), p.el = q.el → p.wc = q.wc →
    (∀ i, i < p.wc.toNat → bufByte p.buf i = bufByte q.buf i) → runFeeds p s = .next (p', rs) →
    ∃ q', runFeeds q s = .next (q', rs) ∧ q'.el = p'.el ∧ q'.wc = p'.wc

/-- R37, R83, R84: an instruction that feeds one byte stores in Accumulating at index `WC` and nowhere else, and in Idle
nowhere. -/
def Obligations.StoresOneByteAtCursor : Prop :=
  ∀ (s t : State) (b : Byte) (i : Instr), i ∈ [.feed b, .rxstep b, .rxLen b, .rxData b, .rxLast b] →
    exec i s = .next t →
    (s.parser.el = 0#8 → SameBuf s.parser t.parser) ∧
    (s.parser.el ≠ 0#8 → bufByte t.parser.buf s.parser.wc.toNat = b ∧
      ∀ a, a ≠ s.parser.wc.toNat → bufByte t.parser.buf a = bufByte s.parser.buf a)

/-- R41 and the model's choice of log entry 13: after a FEED the view shows the payload it emitted, or nothing;
instructions that feed nothing leave it as it is; the next FEED ends it, though the bytes survive that one FEED. -/
def Obligations.PayloadViewUntilNextFeed : Prop :=
  ∀ (s t : State) (b : Byte) (r : Option Bytes), exec (.feed b) s = .next t → t.result = .fed r →
    payloadView t = r ∧
    (∀ (i : Instr) (u : State), i.writesParser = false ∨ i = .reset → exec i t = .next u → payloadView u = r) ∧
    (∀ (p : Bytes) (c : Byte), r = some p →
      ∃ u, exec (.feed c) t = .next u ∧ payloadView u = none ∧ bufSlice u.parser.buf p.length = p)

/-! ### Invariants and whole-machine rules -/

/-- R15, R23: the invariant holds after reset, for either role. -/
def Obligations.InvariantAfterReset : Prop := ∀ r : Role, (State.resetAs r).Inv

/-- R15: every step keeps it, whatever is offered. -/
def Obligations.StepKeepsInvariant : Prop := ∀ s t : State, s.Inv → step s = .next t → t.Inv

/-- R32, R202: no step faults, in any state. -/
def Obligations.StepNeverFaults : Prop := ∀ (s : State) (f : Fault), step s ≠ .fault f

/-- R177: in a state that meets the invariant every operation has its step (a received-byte row where it is of its
class, SEND for a message of the instance's type), and the invariant still holds after it. -/
def Obligations.NoLockUp : Prop :=
  ∀ (s : State) (i : Instr), s.Inv → i.wellFormed = true → i.inMode s.parser.el s.parser.wc = true →
    (∀ m, i = .send m → outboundOf s.role m = true) → ∃ t, exec i s = .next t ∧ t.Inv

/-- R16: only FEED (in its forms) and RESET write `EL`, `WC` or `BUF`; the others do not read them either. -/
def Obligations.OnlyFeedAndResetTouchTheParser : Prop :=
  ∀ (i : Instr) (s t : State), i.writesParser = false → exec i s = .next t →
    t.parser = s.parser ∧ (∀ a, bufByte t.parser.buf a = bufByte s.parser.buf a) ∧
    ∀ p : Parser, exec i { s with parser := p } = .next { t with parser := p }

/-- The frame of every instruction outside the parser: the role and what is pending never change, only RXSTEP hands a
result over, only SEND writes to the transport (R8, R142, R144), and only feeding instructions move the payload view
(the model's fields, log entries 13, 15 and 20). -/
def Obligations.BoundaryFrame : Prop :=
  ∀ (i : Instr) (s t : State), exec i s = .next t →
    t.role = s.role ∧ t.pending = s.pending ∧ ((∀ b, i ≠ .rxstep b) → t.rxResults = s.rxResults) ∧
    ((∀ m, i ≠ .send m) → t.txFrames = s.txFrames) ∧
    (i.writesParser = false ∨ i = .reset → t.window = s.window)

/-! ### The frame encoder -/

/-- R100, R101: the length byte and the payload unchanged, or `Oversize` above 254; nothing else changes. -/
def Obligations.EncfResults : Prop :=
  ∀ (s : State) (p : Bytes),
    (p.length ≤ 254 → exec (.encf p) s = .next { s with result := .framed (.ok (BitVec.ofNat 8 p.length :: p)) } ∧
      (BitVec.ofNat 8 p.length).toNat = p.length) ∧
    (254 < p.length → exec (.encf p) s = .next { s with result := .framed (.err .oversize) })

/-- R102: the empty payload is framed as one zero byte, which the receiving parser absorbs in Idle; no message encodes to
it. -/
def Obligations.EncfOfEmptyPayloadIsLost : Prop :=
  ∀ s : State, exec (.encf []) s = .next { s with result := .framed (.ok [0x00#8]) } ∧
    (∀ r : State, r.parser.Idle → ∃ t, exec (.feed 0x00#8) r = .next t ∧ t.result = .fed none ∧ t.parser = r.parser) ∧
    ∀ m : Message, encodeMessage m ≠ []

/-! ### The codec -/

/-- R112. -/
def Obligations.EncSetOutputResult : Prop :=
  ∀ (s : State) (v : Bool),
    exec (.encSetOutput v) s = .next { s with result := .encoded [0x00#8, if v then 0x01#8 else 0x00#8] }

/-- R113. -/
def Obligations.EncPrintResult : Prop :=
  ∀ (s : State) (t : Text),
    exec (.encPrint t) s = .next { s with result := .encoded ([0x00#8, BitVec.ofNat 8 t.bytes.length] ++ t.bytes) } ∧
    (BitVec.ofNat 8 t.bytes.length).toNat = t.bytes.length

/-- R115: the checks in order, the first that fails deciding. -/
def Obligations.DecH2DResults : Prop :=
  ∀ (s : State) (t x : Byte) (rest : Bytes),
    exec (.decH2D []) s = .next { s with result := .decoded (.err .truncated) } ∧
    (t ≠ 0x00#8 → exec (.decH2D (t :: rest)) s = .next { s with result := .decoded (.err .unknownTag) }) ∧
    exec (.decH2D [0x00#8]) s = .next { s with result := .decoded (.err .truncated) } ∧
    (1 < x.toNat → exec (.decH2D (0x00#8 :: x :: rest)) s = .next { s with result := .decoded (.err .invalidBool) }) ∧
    (x.toNat ≤ 1 → rest ≠ [] →
      exec (.decH2D (0x00#8 :: x :: rest)) s = .next { s with result := .decoded (.err .trailingBytes) }) ∧
    (x.toNat ≤ 1 → exec (.decH2D [0x00#8, x]) s =
      .next { s with result := .decoded (.ok (.h2d (.setOutput (decide (x = 0x01#8))))) })

/-- R116: presence before validity, validity before what is left over. -/
def Obligations.DecD2HResults : Prop :=
  ∀ (s : State) (t n : Byte) (rest : Bytes),
    exec (.decD2H []) s = .next { s with result := .decoded (.err .truncated) } ∧
    (t ≠ 0x00#8 → exec (.decD2H (t :: rest)) s = .next { s with result := .decoded (.err .unknownTag) }) ∧
    exec (.decD2H [0x00#8]) s = .next { s with result := .decoded (.err .truncated) } ∧
    (rest.length < n.toNat →
      exec (.decD2H (0x00#8 :: n :: rest)) s = .next { s with result := .decoded (.err .truncated) }) ∧
    (n.toNat ≤ rest.length → validUtf8 (rest.take n.toNat) = false →
      exec (.decD2H (0x00#8 :: n :: rest)) s = .next { s with result := .decoded (.err .invalidUtf8) }) ∧
    (∀ text : Text, text.bytes = rest.take n.toNat → n.toNat < rest.length →
      exec (.decD2H (0x00#8 :: n :: rest)) s = .next { s with result := .decoded (.err .trailingBytes) }) ∧
    (∀ text : Text, text.bytes = rest → n.toNat = rest.length →
      exec (.decD2H (0x00#8 :: n :: rest)) s = .next { s with result := .decoded (.ok (.d2h (.print text))) })

/-- R110, R126: `DEC` is the inbound arm of the instance's role, and answers for every payload. -/
def Obligations.DecUsesTheRolesArm : Prop :=
  ∀ (s : State) (p : Bytes),
    (s.role = .device → exec (.dec p) s = exec (.decH2D p) s) ∧
    (s.role = .host → exec (.dec p) s = exec (.decD2H p) s) ∧
    ∃ t r, exec (.dec p) s = .next t ∧ t = { s with result := .decoded r }

/-- R65, R114: the demultiplexer: every payload with a tag byte has a row, and the row, run, gives what `DEC` of that
direction gives; a payload with none is `Truncated`. -/
def Obligations.PayloadRowsAgreeWithDec : Prop :=
  ∀ (s : State) (el wc t : Byte) (fields : Bytes),
    (∃ i, decode el wc (.payloadH2D t fields) = .ok i ∧ exec i s = exec (.decH2D (t :: fields)) s) ∧
    (∃ i, decode el wc (.payloadD2H t fields) = .ok i ∧ exec i s = exec (.decD2H (t :: fields)) s) ∧
    exec (.decH2D []) s = .next { s with result := .decoded (.err .truncated) } ∧
    exec (.decD2H []) s = .next { s with result := .decoded (.err .truncated) }

/-- R115, R117, R118, R120, R121: what each Host-to-Device row answers. -/
def Obligations.H2dRowResults : Prop :=
  ∀ (s : State) (v : Bool) (x : Byte) (rest : Bytes),
    exec (.h2dSetOutput none []) s = .next { s with result := .decoded (.err .truncated) } ∧
    exec (.h2dSetOutput (some v) []) s = .next { s with result := .decoded (.ok (.h2d (.setOutput v))) } ∧
    (rest ≠ [] → exec (.h2dSetOutput (some v) rest) s = .next { s with result := .decoded (.err .trailingBytes) }) ∧
    (1 < x.toNat → exec (.h2dBadBool x rest) s = .next { s with result := .decoded (.err .invalidBool) }) ∧
    (x ≠ 0x00#8 → exec (.h2dReservedTag x rest) s = .next { s with result := .decoded (.err .unknownTag) })

/-- R116, R117, R118, R119, R121: what each Device-to-Host row answers. -/
def Obligations.D2hRowResults : Prop :=
  ∀ (s : State) (n : Byte) (rest : Bytes),
    exec (.d2hPrint none []) s = .next { s with result := .decoded (.err .truncated) } ∧
    (rest.length < n.toNat →
      exec (.d2hPrint (some n) rest) s = .next { s with result := .decoded (.err .truncated) }) ∧
    (n.toNat ≤ rest.length → validUtf8 (rest.take n.toNat) = false →
      exec (.d2hPrint (some n) rest) s = .next { s with result := .decoded (.err .invalidUtf8) }) ∧
    (∀ text : Text, text.bytes = rest.take n.toNat → n.toNat < rest.length →
      exec (.d2hPrint (some n) rest) s = .next { s with result := .decoded (.err .trailingBytes) }) ∧
    (∀ text : Text, text.bytes = rest → n.toNat = rest.length →
      exec (.d2hPrint (some n) rest) s = .next { s with result := .decoded (.ok (.d2h (.print text))) }) ∧
    (n ≠ 0x00#8 → exec (.d2hReservedTag n rest) s = .next { s with result := .decoded (.err .unknownTag) })

/-- R119: the check is the definition: a concatenation of well-formed sequences, the empty one included. -/
def Obligations.ValidUtf8IsConcatOfSequences : Prop :=
  (∀ t : Bytes, validUtf8 t = true ↔ ConcatOfWellFormed t) ∧ validUtf8 [] = true ∧
  (∀ (t : Bytes) (b : Byte), validUtf8 t = true → b ∈ t → b ≠ 0xC0#8 ∧ b ≠ 0xC1#8 ∧ b.toNat < 0xF5)

/-- R162: which operation can report what. -/
def Obligations.ErrorKindsPerOperation : Prop :=
  (∀ p : Bytes, decodeH2D p ≠ .err .invalidUtf8) ∧
  (∀ p : Bytes, decodeD2H p ≠ .err .invalidBool) ∧
  (∀ (s t : State) (m : Message) (e : EncodeError), exec (.send m) s = .next t → t.result = .send (.failed e) →
    e = .oversize ∧ ∃ x : Text, m = .d2h (.print x) ∧ 253 ≤ x.bytes.length) ∧
  (∀ (s t : State) (p : Bytes) (e : EncodeError), exec (.encf p) s = .next t → t.result = .framed (.err e) →
    e = .oversize ∧ 254 < p.length)

/-- R125: `DEC` is the exact partial inverse of `ENC`, in each direction, and `ENC` is injective. -/
def Obligations.CodecRoundTrip : Prop :=
  (∀ m : Message, decodeLike m (encodeMessage m) = .ok m) ∧
  (∀ (p : Bytes) (m : Message), decodeH2D p = .ok m → (∃ k, m = .h2d k) ∧ p = encodeMessage m) ∧
  (∀ (p : Bytes) (m : Message), decodeD2H p = .ok m → (∃ k, m = .d2h k) ∧ p = encodeMessage m) ∧
  (∀ k k' : H2DMessage, encodeMessage (.h2d k) = encodeMessage (.h2d k') → k = k') ∧
  (∀ k k' : D2HMessage, encodeMessage (.d2h k) = encodeMessage (.d2h k') → k = k')

/-- R66: the payload lengths, and which messages frame. -/
def Obligations.WhichMessagesFrame : Prop :=
  (∀ v : Bool, (encodeMessage (.h2d (.setOutput v))).length = 2 ∧ Representable (.h2d (.setOutput v))) ∧
  (∀ t : Text, (encodeMessage (.d2h (.print t))).length = 2 + t.bytes.length ∧
    (Representable (.d2h (.print t)) ↔ t.bytes.length ≤ 252) ∧
    (253 ≤ t.bytes.length → encodeFrame (encodeMessage (.d2h (.print t))) = .err .oversize)) ∧
  (∀ m : Message, 2 ≤ (encodeMessage m).length)

/-! ### The endpoint pipeline -/

/-- R140: `FEED`, then the decode of a completed payload in the same step; the result is handed over. -/
def Obligations.RxstepResult : Prop :=
  ∀ (s : State) (b : Byte), s.parser.InFrame →
    ∃ t r, exec (.feed b) s = .next t ∧ t.result = .fed r ∧
      (r = none → exec (.rxstep b) s =
        .next { t with result := .rxstep none .nothing, rxResults := s.rxResults ++ [.nothing] }) ∧
      (∀ p m, r = some p → decodeFor s.role p = .ok m → exec (.rxstep b) s =
        .next { t with result := .rxstep (some p) (.delivered m), rxResults := s.rxResults ++ [.delivered m] }) ∧
      (∀ p e, r = some p → decodeFor s.role p = .err e → exec (.rxstep b) s =
        .next { t with result := .rxstep (some p) (.failed e), rxResults := s.rxResults ++ [.failed e] })

/-- R148: `RXSTEP` leaves the parser as `FEED` does; after a failed decode it is Idle, what follows is parsed as from the
reset state, and a good frame that follows is delivered. -/
def Obligations.FailedDecodeLeavesParserReady : Prop :=
  ∀ (s t : State) (b : Byte), exec (.rxstep b) s = .next t →
    (∃ u, exec (.feed b) s = .next u ∧ u.parser = t.parser) ∧
    (∀ fed e, t.result = .rxstep fed (.failed e) → t.parser.Idle ∧
      ∀ (bs : Bytes) (q : Parser) (rs : List (Option Bytes)), runFeeds Parser.reset bs = .next (q, rs) →
        ∃ q', runFeeds t.parser bs = .next (q', rs)) ∧
    (∀ fed e m f, t.result = .rxstep fed (.failed e) → outboundOf t.role m = false →
      encodeFrame (encodeMessage m) = .ok f →
      ∃ u, execRxsteps t f = .next u ∧ u.rxResults = t.rxResults ++ deliveryOf m)

/-- R169, R170: an `RXSTEP` depends on the parser, the role and its byte alone: after a failure it does exactly what it
would have done after a success. -/
def Obligations.RxstepIgnoresEarlierResults : Prop :=
  ∀ (s s' t : State) (b : Byte), s.parser = s'.parser → s.role = s'.role → exec (.rxstep b) s = .next t →
    ∃ t' r, exec (.rxstep b) s' = .next t' ∧ t'.parser = t.parser ∧ t'.result = t.result ∧
      t.rxResults = s.rxResults ++ [r] ∧ t'.rxResults = s'.rxResults ++ [r]

/-- R167, R145: the events of an `RXSTEP`: a frame is complete exactly when a message is delivered or a decode failed; the
ports say which, from the payload, as the result does. That `dec_err` has no value without `frame_done` is log entry 21. -/
def Obligations.RxstepEvents : Prop :=
  ∀ (s t : State) (b : Byte), exec (.rxstep b) s = .next t →
    (frameDone t = (decErr t).isSome) ∧ (msgValid t = true ↔ decErr t = some 0#3) ∧
    (msgValid t = true ↔ ∃ p m, t.result = .rxstep (some p) (.delivered m)) ∧
    (frameDone t = true ∧ msgValid t = false ↔ ∃ p e, t.result = .rxstep (some p) (.failed e)) ∧
    (frameDone t = true → frameLen t = some s.parser.el)

/-- R145: what the receive side drives with a delivered message: `msg_bool` on a device, `msg_text_len` on a host; and
`pl_data` shows the completed payload, so that the text is its bytes 2 to `n + 1`. The model's choice, not the spec's: that
`pl_data` has no value at an address past the payload (log entries 13 and 21), and that `msg_bool` and `msg_text_len` have
none where R145 does not drive them (log entry 21). -/
def Obligations.MessagePorts : Prop :=
  ∀ (s t : State) (b : Byte) (p : Bytes), exec (.rxstep b) s = .next t → completed t.result = some p →
    rxReady t = true ∧
    (∀ a : Byte, a.toNat < p.length → plData t a = p[a.toNat]?) ∧
    (∀ a : Byte, p.length ≤ a.toNat → plData t a = none) ∧
    (∀ v, t.result = .rxstep (some p) (.delivered (.h2d (.setOutput v))) →
      s.role = .device ∧ msgBool t = some v ∧ msgTextLen t = none) ∧
    (∀ x : Text, t.result = .rxstep (some p) (.delivered (.d2h (.print x))) →
      s.role = .host ∧ msgTextLen t = some (BitVec.ofNat 8 x.bytes.length) ∧ msgBool t = none ∧
      ∀ i, i < x.bytes.length → plData t (BitVec.ofNat 8 (i + 2)) = x.bytes[i]?) ∧
    (∀ e, t.result = .rxstep (some p) (.failed e) → msgBool t = none ∧ msgTextLen t = none)

/-- R142: a message of the outbound type that frames is written as one whole frame; one that does not, a `Print` of 253
bytes or more, is not written at all; nothing else changes. -/
def Obligations.SendResults : Prop :=
  ∀ (s : State) (m : Message), outboundOf s.role m = true →
    (254 < (encodeMessage m).length ↔ ∃ x : Text, m = .d2h (.print x) ∧ 253 ≤ x.bytes.length) ∧
    ((encodeMessage m).length ≤ 254 → exec (.send m) s = .next { s with
      result := .send (.sent (BitVec.ofNat 8 (encodeMessage m).length :: encodeMessage m)),
      txFrames := s.txFrames ++ [BitVec.ofNat 8 (encodeMessage m).length :: encodeMessage m] }) ∧
    (254 < (encodeMessage m).length → exec (.send m) s = .next { s with result := .send (.failed .oversize) })

/-- R142, R126: a message of the inbound type is no operand of SEND: refused (log entry 12). -/
def Obligations.SendRefusesInboundType : Prop :=
  ∀ (s : State) (v : Bool) (x : Text),
    (s.role = .device → exec (.send (.h2d (.setOutput v))) s = .refused .wrongDirection) ∧
    (s.role = .host → exec (.send (.d2h (.print x))) s = .refused .wrongDirection)

/-- R39: an RX operation and a TX operation of one instance can be exchanged, in both directions: same parser, same RX
results, same TX frames, same result of each. -/
def Obligations.RxAndTxCommute : Prop :=
  ∀ (s : State) (b : Byte) (m : Message),
    (∀ s1 s2, exec (.rxstep b) s = .next s1 → exec (.send m) s1 = .next s2 →
      ∃ t1 t2, exec (.send m) s = .next t1 ∧ exec (.rxstep b) t1 = .next t2 ∧ t2.parser = s2.parser ∧
        t2.rxResults = s2.rxResults ∧ t2.txFrames = s2.txFrames ∧ t1.result = s2.result ∧ t2.result = s1.result) ∧
    (∀ t1 t2, exec (.send m) s = .next t1 → exec (.rxstep b) t1 = .next t2 →
      ∃ s1 s2, exec (.rxstep b) s = .next s1 ∧ exec (.send m) s1 = .next s2 ∧ s2.parser = t2.parser ∧
        s2.rxResults = t2.rxResults ∧ s2.txFrames = t2.txFrames ∧ s2.result = t1.result ∧ s1.result = t2.result)

/-- R147: the round trip through both layers, and delivery by `RXSTEP` at the frame's last byte. -/
def Obligations.RoundTripWithFraming : Prop :=
  ∀ m : Message, Representable m →
    ∃ f, encodeFrame (encodeMessage m) = .ok f ∧ stripLength f = some (encodeMessage m) ∧
      (stripLength f).map (decodeLike m) = some (.ok m) ∧ parse f = [encodeMessage m] ∧
      ∀ s : State, s.parser.Idle → outboundOf s.role m = false →
        ∃ t, execRxsteps s f = .next t ∧ t.parser.Idle ∧ t.rxResults = s.rxResults ++ deliveryOf m

/-- R146: under IdealLink and SyncStart, two instances and their steps: every message the sender sends is delivered, in
order, each at the last byte of its frame, with nothing between. -/
def Obligations.DeliveryOverIdealLink : Prop :=
  ∀ (sender receiver : State) (ms : List Message),
    (∀ m ∈ ms, outboundOf sender.role m = true ∧ Representable m) → receiver.role ≠ sender.role →
    sender.pending = ms.map sendTransfer → SyncStart receiver →
    ∃ sender' frames, Host.Core.run Sys2Proof.core ms.length sender = .next sender' ∧
      sender'.txFrames = sender.txFrames ++ frames ∧
      (IdealLink frames receiver →
        ∃ receiver', Host.Core.run Sys2Proof.core frames.flatten.length receiver = .next receiver' ∧
          receiver'.rxResults = receiver.rxResults ++ ms.flatMap deliveryOf ∧ SyncStart receiver')

/-- R89, R197: no recovery is promised: after one spurious byte `0x02` a device never delivers again, however often the
sender repeats the good frame `02 00 01`. -/
def Obligations.OneNoiseByteCanLoseEverything : Prop :=
  ∀ (s : State) (n : Nat), s.role = .device → s.parser.Idle →
    ∃ t rs, execRxsteps s (0x02#8 :: (List.replicate n [0x02#8, 0x00#8, 0x01#8]).flatten) = .next t ∧
      t.rxResults = s.rxResults ++ rs ∧ rs.length = 3 * n + 1 ∧ ∀ m, RxResult.delivered m ∉ rs

/-- R161, R145: the code at `dec_err` after an `RXSTEP` that completed a frame; with no completed frame, and after a `DEC`
used on its own, it has no value (the model's choice, log entry 21). -/
def Obligations.DecodeErrorCodes : Prop :=
  (∀ (s t : State) (b : Byte) (p : Bytes), exec (.rxstep b) s = .next t →
    (∀ m, t.result = .rxstep (some p) (.delivered m) → decErr t = some 0#3) ∧
    (t.result = .rxstep (some p) (.failed .unknownTag) → decErr t = some 1#3) ∧
    (t.result = .rxstep (some p) (.failed .truncated) → decErr t = some 2#3) ∧
    (t.result = .rxstep (some p) (.failed .invalidUtf8) → decErr t = some 3#3) ∧
    (t.result = .rxstep (some p) (.failed .invalidBool) → decErr t = some 4#3) ∧
    (t.result = .rxstep (some p) (.failed .trailingBytes) → decErr t = some 5#3) ∧
    (t.result = .rxstep none .nothing → decErr t = none)) ∧
  ∀ (s t : State) (p : Bytes), exec (.dec p) s = .next t → frameDone t = false ∧ decErr t = none

/-- R145, R161: the transmit side: a frame goes out byte by byte, length byte first, `tx_last` on the last byte and on no
other; a refused SEND or ENCF raises `tx_err` and no byte goes out. -/
def Obligations.TransmitPorts : Prop :=
  ∀ (s t : State) (i : Instr), exec i s = .next t →
    (∀ f, t.result = .send (.sent f) ∨ t.result = .framed (.ok f) → txFrame t = some f ∧ txErr t = 0#1 ∧
      (∃ p, f = BitVec.ofNat 8 p.length :: p ∧ p.length ≤ 254) ∧ (txTransfers f).map Prod.fst = f ∧
      (txTransfers f).map Prod.snd = List.replicate (f.length - 1) false ++ [true]) ∧
    (∀ e, t.result = .send (.failed e) ∨ t.result = .framed (.err e) → txFrame t = none ∧ txErr t = 1#1)

/-! ### Steps -/

/-- A step runs the operation offered first, decoded in the parser's state (R17), on the state with that offer taken. -/
def Obligations.StepRunsTheDecodedInstruction : Prop :=
  ∀ (s : State) (x : Transfer) (rest : List Transfer) (i : Instr), s.pending = x :: rest →
    x.presentIn s.role = true → decode s.parser.el s.parser.wc x = .ok i →
    step s = exec i { s with pending := rest }

/-- R88, R201: with nothing offered the block is quiescent in every state; that the last result ends is the model's
choice (log entry 14). -/
def Obligations.QuiescentWithoutOffers : Prop :=
  ∀ s : State, s.pending = [] → step s = .next { s with result := .none }

/-- R126, R145 and the model's choice of log entry 12: a port the instance does not have has no step. R15, R202, D17: nor
has a received byte past the declared length. Nothing else that is offered lacks an instruction. -/
def Obligations.StepStops : Prop :=
  ∀ (s : State) (x : Transfer) (rest : List Transfer), s.pending = x :: rest →
    (x.presentIn s.role = false → step s = .refused .portAbsent) ∧
    (∀ b, x = .rxClass b → s.parser.el ≠ 0#8 → s.parser.el.toNat ≤ s.parser.wc.toNat →
      step s = .refused .unreachableState) ∧
    (s.parser.InFrame → ∃ i, decode s.parser.el s.parser.wc x = .ok i)
end

