-- ==== Sys2Proof/Laws/State.lean ====
section
/-! SUPPORT. One lemma per field for each update of the state, so that no later proof unfolds one. -/

namespace Sys2Proof.Machine

section Record
variable (s : State) (r : OpResult)
@[simp] theorem record_role : (record s r).role = s.role := rfl
@[simp] theorem record_parser : (record s r).parser = s.parser := rfl
@[simp] theorem record_pending : (record s r).pending = s.pending := rfl
@[simp] theorem record_result : (record s r).result = r := rfl
@[simp] theorem record_window : (record s r).window = s.window := rfl
@[simp] theorem record_rxResults : (record s r).rxResults = s.rxResults := rfl
@[simp] theorem record_txFrames : (record s r).txFrames = s.txFrames := rfl
end Record

section HandOver
variable (s : State) (fed : Option Bytes) (r : RxResult)
@[simp] theorem handOver_role : (handOver s fed r).role = s.role := rfl
@[simp] theorem handOver_parser : (handOver s fed r).parser = s.parser := rfl
@[simp] theorem handOver_pending : (handOver s fed r).pending = s.pending := rfl
@[simp] theorem handOver_result : (handOver s fed r).result = .rxstep fed r := rfl
@[simp] theorem handOver_window : (handOver s fed r).window = s.window := rfl
@[simp] theorem handOver_rxResults : (handOver s fed r).rxResults = s.rxResults ++ [r] := rfl
@[simp] theorem handOver_txFrames : (handOver s fed r).txFrames = s.txFrames := rfl
end HandOver

theorem takeDecodeFailure_eq (s : State) (payload : Bytes) (e : DecodeError) :
    takeDecodeFailure s payload e = handOver s (some payload) (.failed e) := rfl

section WithFetchWord
variable (s : State) (n w : Nat)
@[simp] theorem withFetchWord_role : (s.withFetchWord n w).role = s.role := rfl
@[simp] theorem withFetchWord_parser : (s.withFetchWord n w).parser = s.parser := rfl
@[simp] theorem withFetchWord_pending : (s.withFetchWord n w).pending = tableTransfer n w :: s.pending := rfl
@[simp] theorem withFetchWord_result : (s.withFetchWord n w).result = s.result := rfl
@[simp] theorem withFetchWord_window : (s.withFetchWord n w).window = s.window := rfl
@[simp] theorem withFetchWord_rxResults : (s.withFetchWord n w).rxResults = s.rxResults := rfl
@[simp] theorem withFetchWord_txFrames : (s.withFetchWord n w).txFrames = s.txFrames := rfl
end WithFetchWord

/-! ### Outcomes -/

section AndThen
variable {α β : Type}
@[simp] theorem andThen_next (a : α) (f : α → Answer β) : andThen (.next a) f = f a := rfl
@[simp] theorem andThen_fault (e : Fault) (f : α → Answer β) : andThen (.fault e) f = .fault e := rfl
@[simp] theorem andThen_refused (r : Refusal) (f : α → Answer β) : andThen (.refused r) f = .refused r := rfl

/-- A sequence answers a next value exactly through its first part's. -/
theorem andThen_eq_next {x : Answer α} {f : α → Answer β} {b : β} :
    andThen x f = .next b ↔ ∃ a, x = .next a ∧ f a = .next b := by
  cases x <;> simp

/-- A sequence faults exactly where its first part does, or its second part does after it. -/
theorem andThen_eq_fault {x : Answer α} {f : α → Answer β} {e : Fault} :
    andThen x f = .fault e ↔ x = .fault e ∨ ∃ a, x = .next a ∧ f a = .fault e := by
  cases x <;> simp
end AndThen

end Sys2Proof.Machine
end

