-- ==== Sys2Proof/Laws/Memory.lean ====
section
/-! SUPPORT. `BUF`: read after write, the canonical form, and what the two primitives of R31 can do. -/

namespace Sys2Proof.Machine

/-- R31: "afterwards BUF[i] == v and every other element of BUF is unchanged", on the listed bytes. -/
theorem Memory.at?_put (m : Memory) (i a : Nat) (v : Byte) :
    (m.put i v).at? a = if a = i then some v else m.at? a := by
  induction m with
  | nil => simp [Memory.put, Memory.at?]
  | cons c rest ih =>
    obtain ⟨j, u⟩ := c
    unfold Memory.put
    split
    · simp [Memory.at?]
    · split
      · subst_vars
        by_cases h : a = j <;> simp [Memory.at?, h]
      · by_cases h : a = j
        · subst h
          have : a ≠ i := by omega
          simp [Memory.at?, this]
        · simp [Memory.at?, h, ih]

/-- Every index `put` lists was listed before or is the one written. -/
theorem Memory.mem_put {m : Memory} {i : Nat} {v : Byte} {c : Host.Cell} (h : c ∈ m.put i v) :
    c = (i, v) ∨ c ∈ m := by
  induction m with
  | nil => simpa [Memory.put] using h
  | cons d rest ih =>
    obtain ⟨j, u⟩ := d
    unfold Memory.put at h
    split at h
    · simpa using h
    · split at h
      · rcases List.mem_cons.1 h with h | h
        · exact .inl h
        · exact .inr (List.mem_cons_of_mem _ h)
      · rcases List.mem_cons.1 h with h | h
        · exact .inr (h ▸ List.mem_cons_self)
        · exact (ih h).imp id (List.mem_cons_of_mem _)

/-- A write inside `BUF` keeps the canonical form. -/
theorem Memory.wf_put {m : Memory} {i : Nat} (v : Byte) (hm : m.wf) (hi : i < Config.bufCap) : (m.put i v).wf := by
  refine ⟨?_, fun c hc => ?_⟩
  · replace hm := hm.1
    induction m with
    | nil => simp [Memory.put]
    | cons d rest ih =>
      obtain ⟨j, u⟩ := d
      have hrest := (List.pairwise_cons.1 hm).1
      unfold Memory.put
      split
      · rename_i hij
        refine List.pairwise_cons.2 ⟨fun c hc => ?_, hm⟩
        rcases List.mem_cons.1 hc with rfl | hc
        · exact hij
        · exact Nat.lt_trans hij (hrest c hc)
      · split
        · subst_vars
          exact List.pairwise_cons.2 ⟨hrest, (List.pairwise_cons.1 hm).2⟩
        · refine List.pairwise_cons.2 ⟨fun c hc => ?_, ih (List.pairwise_cons.1 hm).2⟩
          rcases Memory.mem_put hc with rfl | hc
          · show j < i
            omega
          · exact hrest c hc
  · rcases Memory.mem_put hc with rfl | hc
    · exact hi
    · exact hm.2 c hc

/-- R31, on the bytes as they are read. -/
theorem bufByte_put (m : Memory) (i a : Nat) (v : Byte) :
    bufByte (m.put i v) a = if a = i then v else bufByte m a := by
  unfold bufByte
  rw [Memory.at?_put]
  split <;> rfl

@[simp] theorem bufByte_put_self (m : Memory) (i : Nat) (v : Byte) : bufByte (m.put i v) i = v := by
  simp [bufByte_put]

theorem bufByte_put_ne {m : Memory} {i a : Nat} (v : Byte) (h : a ≠ i) : bufByte (m.put i v) a = bufByte m a := by
  simp [bufByte_put, h]

@[simp] theorem bufSlice_length (m : Memory) (n : Nat) : (bufSlice m n).length = n := by simp [bufSlice]

/-- R31: element `i` of `BUF[0 .. n]` is `BUF[i]`. -/
theorem bufSlice_getElem? (m : Memory) {n i : Nat} (h : i < n) : (bufSlice m n)[i]? = some (bufByte m i) := by
  simp [bufSlice, h]

/-- A slice depends on its own bytes only (R22). -/
theorem bufSlice_congr {m k : Memory} {n : Nat} (h : ∀ i, i < n → bufByte m i = bufByte k i) :
    bufSlice m n = bufSlice k n :=
  List.map_congr_left fun i hi => h i (List.mem_range.1 hi)

theorem bufSlice_succ (m : Memory) (n : Nat) : bufSlice m (n + 1) = bufSlice m n ++ [bufByte m n] := by
  simp [bufSlice, List.range_succ]

/-- A listed write at the end of a slice appends its byte. -/
theorem bufSlice_put_end (m : Memory) (n : Nat) (v : Byte) : bufSlice (m.put n v) (n + 1) = bufSlice m n ++ [v] := by
  rw [bufSlice_succ, bufByte_put_self, bufSlice_congr fun i hi => bufByte_put_ne v (Nat.ne_of_lt hi)]

/-- R31, R32: a write at an index a byte counts below 255 succeeds, and is a `put`. -/
theorem memWrite_of_lt (m : Memory) {i : Nat} (v : Byte) (h : i < Config.bufCap) : memWrite m i v = .next (m.put i v) :=
  if_pos h

theorem memWrite_eq_next {m k : Memory} {i : Nat} {v : Byte} (h : memWrite m i v = .next k) :
    i < Config.bufCap ∧ k = m.put i v := by
  unfold memWrite at h
  split at h
  · exact ⟨‹_›, by cases h; rfl⟩
  · cases h

/-- R32: every length a byte can state is inside `BUF`. -/
theorem memRead_byte (m : Memory) (l : Byte) : memRead m l.toNat = .next (bufSlice m l.toNat) :=
  if_pos (by have := l.isLt; unfold Config.bufCap; omega)

end Sys2Proof.Machine
end

