-- ==== Sys2Proof/Laws/Parser.lean ====
section
/-! SUPPORT. The parser's step: which class a byte falls in (R53), what a `FEED` does, said once, and what a run of
`FEED`s does (R94). -/

namespace Sys2Proof.Machine

/-! ### Classes -/

theorem rxClass_idle {el wc b : Byte} (h : el = 0#8) : rxClass el wc b = some (if b = 0#8 then .len0 else .len) := by
  by_cases hb : b = 0#8 <;> simp [rxClass, h, hb]

theorem rxClass_data {el wc : Byte} (b : Byte) (h : el ≠ 0#8) (hw : wc.toNat < el.toNat - 1) :
    rxClass el wc b = some .data := by
  simp [rxClass, h, hw]

theorem rxClass_last {el wc : Byte} (b : Byte) (h : el ≠ 0#8) (hw : wc.toNat = el.toNat - 1) :
    rxClass el wc b = some .last := by
  simp [rxClass, h, hw]

theorem rxClass_none {el wc : Byte} (b : Byte) (h : el ≠ 0#8) (hw : el.toNat ≤ wc.toNat) : rxClass el wc b = none := by
  have h0 : el.toNat ≠ 0 := fun h' => h (BitVec.eq_of_toNat_eq h')
  have h1 : ¬ wc.toNat < el.toNat - 1 := by omega
  have h2 : ¬ wc.toNat = el.toNat - 1 := by omega
  simp [rxClass, h, h1, h2]

theorem toNat_pos {b : Byte} (h : b ≠ 0#8) : 0 < b.toNat := by
  rcases Nat.eq_zero_or_pos b.toNat with h' | h'
  · exact absurd (BitVec.eq_of_toNat_eq h') h
  · exact h'

/-! ### One FEED -/

/-- R81, R82: in Idle, the byte becomes `EL` and nothing is emitted. -/
theorem feedParser_idle {p : Parser} (b : Byte) (h : p.el = 0#8) :
    feedParser p b = .next ({ p with el := b, wc := 0#8 }, none) := by
  unfold feedParser
  rw [rxClass_idle h]
  by_cases hb : b = 0#8
  · simp [hb, rxLen0Op]
  · simp [hb, rxLenOp]

/-- R83. -/
theorem feedParser_data {p : Parser} (b : Byte) (h : p.el ≠ 0#8) (hw : p.wc.toNat < p.el.toNat - 1) :
    feedParser p b = .next ({ p with wc := p.wc + 1#8, buf := p.buf.put p.wc.toNat b }, none) := by
  have hlt : p.wc.toNat < Config.bufCap := by have := p.el.isLt; unfold Config.bufCap; omega
  simp [feedParser, rxClass_data b h hw, rxDataOp, memWrite_of_lt _ _ hlt]

/-- R84. -/
theorem feedParser_last {p : Parser} (b : Byte) (h : p.el ≠ 0#8) (hw : p.wc.toNat = p.el.toNat - 1) :
    feedParser p b =
      .next ({ el := 0#8, wc := 0#8, buf := p.buf.put p.wc.toNat b },
        some (bufSlice (p.buf.put p.wc.toNat b) p.el.toNat)) := by
  have hlt : p.wc.toNat < Config.bufCap := by have := p.el.isLt; unfold Config.bufCap; omega
  simp [feedParser, rxClass_last b h hw, rxLastOp, memWrite_of_lt _ _ hlt, memRead_byte]

/-- R15, R202: past the declared length there is no step. -/
theorem feedParser_stuck {p : Parser} (b : Byte) (h : p.el ≠ 0#8) (hw : p.el.toNat ≤ p.wc.toNat) :
    feedParser p b = .refused .unreachableState := by
  simp [feedParser, rxClass_none b h hw]

/-- The four situations of a parser. -/
theorem Parser.situation (p : Parser) :
    p.el = 0#8 ∨ (p.el ≠ 0#8 ∧ p.wc.toNat < p.el.toNat - 1) ∨ (p.el ≠ 0#8 ∧ p.wc.toNat = p.el.toNat - 1) ∨
      (p.el ≠ 0#8 ∧ p.el.toNat ≤ p.wc.toNat) := by
  by_cases h : p.el = 0#8
  · exact .inl h
  · have := toNat_pos h
    rcases Nat.lt_trichotomy p.wc.toNat (p.el.toNat - 1) with h' | h' | h'
    · exact .inr (.inl ⟨h, h'⟩)
    · exact .inr (.inr (.inl ⟨h, h'⟩))
    · exact .inr (.inr (.inr ⟨h, by omega⟩))

/-- Everything a `FEED` can do when it answers a next state (R92, the transition table). -/
theorem feedParser_cases {p q : Parser} {b : Byte} {r : Option Bytes} (h : feedParser p b = .next (q, r)) :
    (p.el = 0#8 ∧ q = { p with el := b, wc := 0#8 } ∧ r = none) ∨
    (p.el ≠ 0#8 ∧ p.wc.toNat < p.el.toNat - 1 ∧
      q = { p with wc := p.wc + 1#8, buf := p.buf.put p.wc.toNat b } ∧ r = none) ∨
    (p.el ≠ 0#8 ∧ p.wc.toNat = p.el.toNat - 1 ∧
      q = { el := 0#8, wc := 0#8, buf := p.buf.put p.wc.toNat b } ∧
      r = some (bufSlice (p.buf.put p.wc.toNat b) p.el.toNat)) := by
  rcases p.situation with h1 | ⟨h1, h2⟩ | ⟨h1, h2⟩ | ⟨h1, h2⟩
  · rw [feedParser_idle b h1] at h
    cases h
    exact .inl ⟨h1, rfl, rfl⟩
  · rw [feedParser_data b h1 h2] at h
    cases h
    exact .inr (.inl ⟨h1, h2, rfl, rfl⟩)
  · rw [feedParser_last b h1 h2] at h
    cases h
    exact .inr (.inr ⟨h1, h2, rfl, rfl⟩)
  · rw [feedParser_stuck b h1 h2] at h
    cases h

/-- R162: `FEED` raises nothing; R32: it never leaves `BUF`. -/
theorem feedParser_ne_fault (p : Parser) (b : Byte) (e : Fault) : feedParser p b ≠ .fault e := by
  rcases p.situation with h1 | ⟨h1, h2⟩ | ⟨h1, h2⟩ | ⟨h1, h2⟩
  · rw [feedParser_idle b h1]; nofun
  · rw [feedParser_data b h1 h2]; nofun
  · rw [feedParser_last b h1 h2]; nofun
  · rw [feedParser_stuck b h1 h2]; nofun

/-- R80: in a reachable state `FEED` answers. -/
theorem feedParser_total {p : Parser} (hp : p.InFrame) (b : Byte) : ∃ q r, feedParser p b = .next (q, r) := by
  rcases p.situation with h1 | ⟨h1, h2⟩ | ⟨h1, h2⟩ | ⟨h1, h2⟩
  · exact ⟨_, _, feedParser_idle b h1⟩
  · exact ⟨_, _, feedParser_data b h1 h2⟩
  · exact ⟨_, _, feedParser_last b h1 h2⟩
  · exact absurd h2 (Nat.not_le.2 (hp.2 h1))

/-- R83: the increment never wraps (R90 (c)). -/
theorem toNat_wc_succ {p : Parser} (hw : p.wc.toNat < p.el.toNat - 1) : (p.wc + 1#8).toNat = p.wc.toNat + 1 := by
  have := p.el.isLt
  have : (1#8 : Byte).toNat = 1 := rfl
  rw [BitVec.toNat_add]
  omega

/-- R15: `FEED` keeps (I1) and (I2), whatever the state before. -/
theorem feedParser_inFrame {p q : Parser} {b : Byte} {r : Option Bytes} (h : feedParser p b = .next (q, r)) :
    q.InFrame := by
  rcases feedParser_cases h with ⟨-, rfl, -⟩ | ⟨h1, h2, rfl, -⟩ | ⟨-, -, rfl, -⟩
  · exact ⟨fun _ => rfl, fun hb => toNat_pos hb⟩
  · refine ⟨fun h0 => absurd h0 h1, fun _ => ?_⟩
    show (p.wc + 1#8).toNat < p.el.toNat
    rw [toNat_wc_succ h2]
    omega
  · exact ⟨fun _ => rfl, fun h0 => absurd rfl h0⟩

/-- R15: `FEED` keeps the invariant. -/
theorem feedParser_inv {p q : Parser} {b : Byte} {r : Option Bytes} (hp : p.Inv) (h : feedParser p b = .next (q, r)) :
    q.Inv := by
  refine ⟨feedParser_inFrame h, ?_, ?_⟩
  · rcases feedParser_cases h with ⟨-, rfl, -⟩ | ⟨h1, h2, rfl, -⟩ | ⟨h1, h2, rfl, -⟩
    · exact hp.canonical
    · exact Memory.wf_put b hp.canonical (by have := p.el.isLt; unfold Config.bufCap; omega)
    · exact Memory.wf_put b hp.canonical (by have := p.el.isLt; unfold Config.bufCap; omega)
  · rcases feedParser_cases h with ⟨-, rfl, -⟩ | ⟨h1, h2, rfl, -⟩ | ⟨-, -, rfl, -⟩
    · intro i hi
      exact absurd hi (Nat.not_lt_zero _)
    · intro i hi
      replace hi : i < (p.wc + 1#8).toNat := hi
      rw [toNat_wc_succ h2] at hi
      show ((p.buf.put p.wc.toNat b).at? i).isSome = true
      rw [Memory.at?_put]
      split
      · rfl
      · exact hp.written i (by omega)
    · intro i hi
      exact absurd hi (Nat.not_lt_zero _)

/-- R84, R93: what a completing `FEED` leaves and returns. -/
theorem feedParser_completes {p q : Parser} {b : Byte} {payload : Bytes}
    (h : feedParser p b = .next (q, some payload)) :
    p.el ≠ 0#8 ∧ p.wc.toNat = p.el.toNat - 1 ∧ q.Idle ∧ payload.length = p.el.toNat ∧
      payload = bufSlice q.buf p.el.toNat ∧ q.buf = p.buf.put p.wc.toNat b := by
  rcases feedParser_cases h with ⟨-, -, h'⟩ | ⟨-, -, -, h'⟩ | ⟨h1, h2, rfl, h'⟩
  · cases h'
  · cases h'
  · cases h'
    exact ⟨h1, h2, ⟨rfl, rfl⟩, bufSlice_length _ _, rfl, rfl⟩

/-- A length that a byte can state is its own length byte. -/
theorem lengthByte_toNat {p : Bytes} (h : p.length < 256) : (lengthByte p).toNat = p.length := by
  simpa [lengthByte] using h

theorem lengthByte_of_length {p : Bytes} {l : Byte} (h : p.length = l.toNat) : lengthByte p = l := by
  simp [lengthByte, h]

/-! ### Runs of FEEDs -/

@[simp] theorem runFeeds_nil (p : Parser) : runFeeds p [] = .next (p, []) := rfl

theorem runFeeds_cons {p p1 : Parser} {b : Byte} {r : Option Bytes} (h : feedParser p b = .next (p1, r)) (s : Bytes) :
    runFeeds p (b :: s) = andThen (runFeeds p1 s) fun (p2, rs) => .next (p2, r :: rs) := by
  simp [runFeeds, h]

/-- R94: a run over `s ++ t` is the run over `s`, then the run over `t` from the state reached. -/
theorem runFeeds_append (p : Parser) (s t : Bytes) :
    runFeeds p (s ++ t) =
      andThen (runFeeds p s) fun (p1, rs) => andThen (runFeeds p1 t) fun (p2, rs2) => .next (p2, rs ++ rs2) := by
  induction s generalizing p with
  | nil =>
    simp only [List.nil_append, runFeeds_nil, andThen_next]
    cases runFeeds p t <;> rfl
  | cons b s ih =>
    cases hf : feedParser p b with
    | next pr =>
      obtain ⟨p1, r⟩ := pr
      rw [List.cons_append, runFeeds_cons hf, runFeeds_cons hf, ih]
      cases runFeeds p1 s with
      | next x => cases hx : runFeeds x.1 t <;> simp [hx]
      | fault e => rfl
      | refused e => rfl
    | fault e => simp [runFeeds, hf]
    | refused e => simp [runFeeds, hf]

/-- R162, R32. -/
theorem runFeeds_ne_fault (p : Parser) (s : Bytes) (e : Fault) : runFeeds p s ≠ .fault e := by
  induction s generalizing p with
  | nil => nofun
  | cons b s ih =>
    intro h
    rcases andThen_eq_fault.1 h with h | ⟨⟨p1, r⟩, -, h⟩
    · exact feedParser_ne_fault p b e h
    · rcases andThen_eq_fault.1 h with h | ⟨_, -, h⟩
      · exact ih p1 h
      · cases h

/-- R38, R80: any bytes can be fed from a reachable state. -/
theorem runFeeds_total {p : Parser} (hp : p.InFrame) (s : Bytes) : ∃ q rs, runFeeds p s = .next (q, rs) := by
  induction s generalizing p with
  | nil => exact ⟨p, [], rfl⟩
  | cons b s ih =>
    obtain ⟨p1, r, h1⟩ := feedParser_total hp b
    obtain ⟨q, rs, h2⟩ := ih (feedParser_inFrame h1)
    exact ⟨q, r :: rs, by rw [runFeeds_cons h1, h2]; rfl⟩

theorem runFeeds_cons_eq_next {p q : Parser} {b : Byte} {s : Bytes} {rs : List (Option Bytes)}
    (h : runFeeds p (b :: s) = .next (q, rs)) :
    ∃ p1 r rs', feedParser p b = .next (p1, r) ∧ runFeeds p1 s = .next (q, rs') ∧ rs = r :: rs' := by
  obtain ⟨⟨p1, r⟩, h1, h2⟩ := andThen_eq_next.1 h
  obtain ⟨⟨p2, rs'⟩, h3, h4⟩ := andThen_eq_next.1 h2
  cases h4
  exact ⟨p1, r, rs', h1, h3, rfl⟩

theorem runFeeds_inv {p q : Parser} {s : Bytes} {rs : List (Option Bytes)} (hp : p.Inv)
    (h : runFeeds p s = .next (q, rs)) : q.Inv := by
  induction s generalizing p rs with
  | nil => cases h; exact hp
  | cons b s ih =>
    obtain ⟨p1, r, rs', h1, h2, -⟩ := runFeeds_cons_eq_next h
    exact ih (feedParser_inv hp h1) h2

/-- R15 (I4), R83: payload bytes before the last are stored in order from the cursor on, and emit nothing. -/
theorem runFeeds_data (ds : Bytes) {p : Parser} (h : p.el ≠ 0#8) (hw : p.wc.toNat + ds.length < p.el.toNat) :
    ∃ q, runFeeds p ds = .next (q, List.replicate ds.length none) ∧ q.el = p.el ∧
      q.wc.toNat = p.wc.toNat + ds.length ∧
      bufSlice q.buf (p.wc.toNat + ds.length) = bufSlice p.buf p.wc.toNat ++ ds ∧
      ∀ a, p.wc.toNat + ds.length ≤ a → bufByte q.buf a = bufByte p.buf a := by
  induction ds generalizing p with
  | nil => exact ⟨p, rfl, rfl, rfl, by simp, fun _ _ => rfl⟩
  | cons d ds ih =>
    simp only [List.length_cons] at hw
    have hd : p.wc.toNat < p.el.toNat - 1 := by omega
    have h1 := feedParser_data d h hd
    have hsucc := toNat_wc_succ hd
    obtain ⟨q, hq, hel, hwc, hslice, hrest⟩ :=
      ih (p := { p with wc := p.wc + 1#8, buf := p.buf.put p.wc.toNat d }) h
        (by show (p.wc + 1#8).toNat + _ < _; rw [hsucc]; show _ < p.el.toNat; omega)
    simp only [hsucc] at hwc hslice hrest
    refine ⟨q, ?_, hel, ?_, ?_, ?_⟩
    · rw [runFeeds_cons h1, hq]
      rfl
    · rw [hwc, List.length_cons]; omega
    · rw [List.length_cons, show p.wc.toNat + (ds.length + 1) = p.wc.toNat + 1 + ds.length by omega, hslice,
        bufSlice_put_end]
      simp
    · intro a ha
      rw [List.length_cons] at ha
      rw [hrest a (by omega), bufByte_put_ne _ (by omega)]

/-- R92, R94: from Idle, a length byte and that many bytes: nothing until the last, then exactly the payload, and the
parser is Idle again. -/
theorem runFeeds_frame {p : Parser} (h : p.el = 0#8) {payload : Bytes} (h1 : 1 ≤ payload.length)
    (h2 : payload.length ≤ 255) :
    ∃ q, runFeeds p (lengthByte payload :: payload) =
        .next (q, List.replicate payload.length none ++ [some payload]) ∧ q.Idle ∧
      bufSlice q.buf payload.length = payload ∧
      ∀ a, payload.length ≤ a → bufByte q.buf a = bufByte p.buf a := by
  obtain ⟨ds, d, rfl⟩ : ∃ ds d, payload = ds ++ [d] :=
    ⟨payload.dropLast, payload.getLast (by intro h'; simp [h'] at h1), (List.dropLast_append_getLast _).symm⟩
  have hL : (lengthByte (ds ++ [d])).toNat = ds.length + 1 := by
    rw [lengthByte_toNat (by omega)]; simp
  have hlen : (ds ++ [d]).length = ds.length + 1 := by simp
  have hne : lengthByte (ds ++ [d]) ≠ 0#8 := by
    intro h'
    rw [h'] at hL
    simp at hL
  have hf := feedParser_idle (lengthByte (ds ++ [d])) h
  obtain ⟨q1, hq1, hel, hwc, hslice, hrest⟩ :=
    runFeeds_data ds (p := { p with el := lengthByte (ds ++ [d]), wc := 0#8 }) hne
      (by show 0 + _ < _; rw [hL]; omega)
  replace hel : q1.el = lengthByte (ds ++ [d]) := hel
  replace hwc : q1.wc.toNat = ds.length := by simpa using hwc
  replace hslice : bufSlice q1.buf ds.length = ds := by simpa [bufSlice] using hslice
  have hlast := feedParser_last (p := q1) d (by rw [hel]; exact hne) (by rw [hwc, hel, hL]; rfl)
  have hemit : bufSlice (q1.buf.put q1.wc.toNat d) q1.el.toNat = ds ++ [d] := by
    rw [hel, hL, hwc, bufSlice_put_end, hslice]
  rw [hemit] at hlast
  refine ⟨{ el := 0#8, wc := 0#8, buf := q1.buf.put q1.wc.toNat d }, ?_, ⟨rfl, rfl⟩, ?_, ?_⟩
  · have hone := runFeeds_cons hlast []
    simp only [runFeeds_nil, andThen_next] at hone
    rw [runFeeds_cons hf, runFeeds_append, hq1, hlen]
    simp only [andThen_next, hone, List.replicate_succ, List.cons_append]
  · simp only [hlen, hwc, bufSlice_put_end, hslice]
  · intro a ha
    rw [hlen] at ha
    show bufByte (q1.buf.put q1.wc.toNat d) a = _
    rw [bufByte_put_ne _ (by omega)]
    exact hrest a (by show 0 + ds.length ≤ a; omega)

/-! ### What a run depends on -/

/-- R22: two parsers that agree on what the current frame has stored. -/
def Parser.Agree (p q : Parser) : Prop :=
  p.el = q.el ∧ p.wc = q.wc ∧ ∀ i, i < p.wc.toNat → bufByte p.buf i = bufByte q.buf i

/-- R22, R93: one `FEED` cannot tell them apart. -/
theorem feedParser_agree {p q p1 : Parser} {b : Byte} {r : Option Bytes} (hpq : p.Agree q)
    (h : feedParser p b = .next (p1, r)) : ∃ q1, feedParser q b = .next (q1, r) ∧ p1.Agree q1 := by
  obtain ⟨hel, hwc, hbuf⟩ := hpq
  have hput : ∀ i, i < p.wc.toNat + 1 →
      bufByte (p.buf.put p.wc.toNat b) i = bufByte (q.buf.put q.wc.toNat b) i := by
    intro i hi
    rw [← hwc, bufByte_put, bufByte_put]
    split
    · rfl
    · exact hbuf i (by omega)
  rcases feedParser_cases h with ⟨h1, rfl, rfl⟩ | ⟨h1, h2, rfl, rfl⟩ | ⟨h1, h2, rfl, rfl⟩
  · exact ⟨_, feedParser_idle b (hel ▸ h1), rfl, rfl, fun i hi => absurd hi (Nat.not_lt_zero _)⟩
  · refine ⟨_, feedParser_data b (hel ▸ h1) (hel ▸ hwc ▸ h2), hel, ?_, fun i hi => ?_⟩
    · show p.wc + 1#8 = q.wc + 1#8
      rw [hwc]
    · replace hi : i < (p.wc + 1#8).toNat := hi
      rw [toNat_wc_succ h2] at hi
      exact hput i hi
  · have hpos := toNat_pos h1
    refine ⟨{ el := 0#8, wc := 0#8, buf := q.buf.put q.wc.toNat b }, ?_, rfl, rfl,
      fun i hi => absurd hi (Nat.not_lt_zero _)⟩
    rw [feedParser_last b (hel ▸ h1) (hel ▸ hwc ▸ h2), ← hel,
      bufSlice_congr (m := p.buf.put p.wc.toNat b) fun i hi => hput i (by omega)]

/-- R22: nor can any number of them. -/
theorem runFeeds_agree {p q p1 : Parser} {s : Bytes} {rs : List (Option Bytes)} (hpq : p.Agree q)
    (h : runFeeds p s = .next (p1, rs)) : ∃ q1, runFeeds q s = .next (q1, rs) ∧ p1.Agree q1 := by
  induction s generalizing p q rs with
  | nil => cases h; exact ⟨q, rfl, hpq⟩
  | cons b s ih =>
    obtain ⟨p2, r, rs', h1, h2, rfl⟩ := runFeeds_cons_eq_next h
    obtain ⟨q2, h3, h4⟩ := feedParser_agree hpq h1
    obtain ⟨q1, h5, h6⟩ := ih h4 h2
    exact ⟨q1, by rw [runFeeds_cons h3, h5]; rfl, h6⟩

/-! ### Emissions -/

theorem emissions_append (rs qs : List (Option Bytes)) : emissions (rs ++ qs) = emissions rs ++ emissions qs := by
  simp [emissions]

theorem emissions_quiet (n : Nat) : emissions (List.replicate n none) = [] := by
  simp [emissions]

theorem emissions_frame (n : Nat) (payload : Bytes) :
    emissions (List.replicate n none ++ [some payload]) = [payload] := by
  rw [emissions_append, emissions_quiet]
  rfl

/-- R94: `parse` is the emissions of the run from the reset state. -/
theorem parse_of_run {s : Bytes} {q : Parser} {rs : List (Option Bytes)} (h : runFeeds Parser.reset s = .next (q, rs)) :
    parse s = emissions rs := by
  simp [parse, h]

end Sys2Proof.Machine
end

