-- ==== Sys2Proof/Laws/Codec.lean ====
section
/-! SUPPORT. The codec's pieces: a text from its bytes, and what reading a field gives. -/

namespace Sys2Proof

/-- R127: a text's own bytes give it back. -/
@[simp] theorem Text.ofBytes?_bytes (t : Text) : Text.ofBytes? t.bytes = some t := dif_pos ⟨t.valid, t.short⟩

theorem Text.ofBytes?_eq_some {bs : Bytes} {t : Text} : Text.ofBytes? bs = some t ↔ t.bytes = bs := by
  constructor
  · intro h
    unfold Text.ofBytes? at h
    split at h
    · cases h; rfl
    · cases h
  · rintro rfl
    exact Text.ofBytes?_bytes t

/-- R119: of at most 255 bytes, exactly the invalid ones are no text. -/
theorem Text.ofBytes?_eq_none {bs : Bytes} (h : bs.length ≤ Config.textMax) :
    Text.ofBytes? bs = none ↔ validUtf8 bs = false := by
  unfold Text.ofBytes?
  split
  · simp_all
  · simp_all

theorem Text.ext_bytes {t u : Text} (h : t.bytes = u.bytes) : t = u := by
  cases t; cases u; cases h; rfl

theorem Text.length_lt (t : Text) : t.bytes.length < 256 := Nat.lt_succ_of_le t.short

end Sys2Proof

namespace Sys2Proof.Machine

@[simp] theorem boolByte_toNat_le (v : Bool) : (boolByte v).toNat ≤ 1 := by cases v <;> decide

@[simp] theorem boolByte_beq (v : Bool) : (boolByte v == 0x01#8) = v := by cases v <;> rfl

theorem boolByte_of_le {x : Byte} (h : ¬ 1 < x.toNat) : boolByte (x == 0x01#8) = x := by
  have hx : x.toNat = 0 ∨ x.toNat = 1 := by omega
  rcases hx with hx | hx
  · have : x = 0#8 := BitVec.eq_of_toNat_eq hx
    subst this; rfl
  · have : x = 1#8 := BitVec.eq_of_toNat_eq hx
    subst this; rfl

theorem finishMessage_eq_ok {m k : Message} {rest : Bytes} : finishMessage m rest = .ok k ↔ rest = [] ∧ m = k := by
  cases rest <;> simp [finishMessage]

theorem finishMessage_eq_err {m : Message} {rest : Bytes} {e : DecodeError} :
    finishMessage m rest = .err e ↔ rest ≠ [] ∧ e = .trailingBytes := by
  cases rest <;> simp [finishMessage, eq_comm]

/-- R56, R120: the bool that is read is the one written. -/
theorem readBool_boolByte (v : Bool) (rest : Bytes) : readBool (boolByte v :: rest) = .got v rest := by
  have := boolByte_toNat_le v
  simp only [readBool, boolByte_beq]
  rw [if_neg (by omega)]

theorem readBool_eq_got {p rest : Bytes} {v : Bool} : readBool p = .got v rest ↔ p = boolByte v :: rest := by
  constructor
  · intro h
    unfold readBool at h
    split at h
    · cases h
    · split at h
      · cases h
      · cases h
        rw [boolByte_of_le ‹_›]
  · rintro rfl
    exact readBool_boolByte v rest

/-- R57, R118, R119: what the text bytes after the length byte give. -/
theorem readTextBytes_short {n : Byte} {rest : Bytes} (h : rest.length < n.toNat) :
    readTextBytes n rest = .bad .truncated := if_pos h

theorem take_short (n : Byte) (rest : Bytes) : (rest.take n.toNat).length ≤ Config.textMax := by
  have := n.isLt
  simp only [List.length_take, Config.textMax]
  omega

theorem readTextBytes_invalid {n : Byte} {rest : Bytes} (h : n.toNat ≤ rest.length)
    (hv : validUtf8 (rest.take n.toNat) = false) : readTextBytes n rest = .bad .invalidUtf8 := by
  simp [readTextBytes, Nat.not_lt.2 h, (Text.ofBytes?_eq_none (take_short n rest)).2 hv]

theorem readTextBytes_got {n : Byte} {rest : Bytes} {t : Text} (h : n.toNat ≤ rest.length)
    (ht : t.bytes = rest.take n.toNat) : readTextBytes n rest = .got t (rest.drop n.toNat) := by
  simp [readTextBytes, Nat.not_lt.2 h, Text.ofBytes?_eq_some.2 ht]

/-- The three outcomes, said once. -/
theorem readTextBytes_cases (n : Byte) (rest : Bytes) :
    (rest.length < n.toNat ∧ readTextBytes n rest = .bad .truncated) ∨
    (n.toNat ≤ rest.length ∧ validUtf8 (rest.take n.toNat) = false ∧ readTextBytes n rest = .bad .invalidUtf8) ∨
    (n.toNat ≤ rest.length ∧ ∃ t : Text, t.bytes = rest.take n.toNat ∧
      readTextBytes n rest = .got t (rest.drop n.toNat)) := by
  by_cases h : rest.length < n.toNat
  · exact .inl ⟨h, readTextBytes_short h⟩
  · rw [Nat.not_lt] at h
    cases hv : validUtf8 (rest.take n.toNat)
    · exact .inr (.inl ⟨h, rfl, readTextBytes_invalid h hv⟩)
    · exact .inr (.inr ⟨h, ⟨_, hv, take_short n rest⟩, rfl, readTextBytes_got h rfl⟩)

theorem readText_text (t : Text) (rest : Bytes) : readText (lengthByte t.bytes :: (t.bytes ++ rest)) = .got t rest := by
  have hn := lengthByte_toNat t.length_lt
  show readTextBytes _ _ = _
  rw [readTextBytes_got (t := t) (by simp [hn]) (by simp [hn])]
  simp [hn]

theorem readText_eq_got {p rest : Bytes} {t : Text} :
    readText p = .got t rest ↔ p = lengthByte t.bytes :: (t.bytes ++ rest) := by
  constructor
  · intro h
    cases p with
    | nil => cases h
    | cons n p =>
      change readTextBytes n p = _ at h
      rcases readTextBytes_cases n p with ⟨_, h'⟩ | ⟨_, _, h'⟩ | ⟨hl, u, hu, h'⟩
      · rw [h'] at h; cases h
      · rw [h'] at h; cases h
      · rw [h'] at h
        cases h
        have hlen : t.bytes.length = n.toNat := by rw [hu, List.length_take]; omega
        rw [lengthByte_of_length hlen, hu, List.take_append_drop]
  · rintro rfl
    exact readText_text t rest

/-! ### The two variants (R115, R116 after the tag) -/

@[simp] theorem readSetOutput_nil : readSetOutput [] = .err .truncated := rfl

theorem readSetOutput_bool (v : Bool) (rest : Bytes) :
    readSetOutput (boolByte v :: rest) = finishMessage (.h2d (.setOutput v)) rest := by
  unfold readSetOutput
  rw [readBool_boolByte]

theorem readSetOutput_bad {x : Byte} (rest : Bytes) (h : 1 < x.toNat) : readSetOutput (x :: rest) = .err .invalidBool := by
  simp [readSetOutput, readBool, h]

@[simp] theorem readPrint_nil : readPrint [] = .err .truncated := rfl

theorem readPrint_short {n : Byte} {rest : Bytes} (h : rest.length < n.toNat) :
    readPrint (n :: rest) = .err .truncated := by
  simp [readPrint, readText, readTextBytes_short h]

theorem readPrint_invalid {n : Byte} {rest : Bytes} (h : n.toNat ≤ rest.length)
    (hv : validUtf8 (rest.take n.toNat) = false) : readPrint (n :: rest) = .err .invalidUtf8 := by
  simp [readPrint, readText, readTextBytes_invalid h hv]

theorem readPrint_got {n : Byte} {rest : Bytes} {t : Text} (h : n.toNat ≤ rest.length)
    (ht : t.bytes = rest.take n.toNat) :
    readPrint (n :: rest) = finishMessage (.d2h (.print t)) (rest.drop n.toNat) := by
  simp [readPrint, readText, readTextBytes_got h ht]

/-- R114: dispatch on the tag alone. -/
theorem decodeH2D_cons (t : Byte) (fields : Bytes) :
    decodeH2D (t :: fields) = if t = Config.tag then readSetOutput fields else .err .unknownTag := rfl

theorem decodeD2H_cons (t : Byte) (fields : Bytes) :
    decodeD2H (t :: fields) = if t = Config.tag then readPrint fields else .err .unknownTag := rfl

/-- R100, R104. -/
theorem encodeFrame_ok {p : Bytes} (h : p.length ≤ Config.txMaxPayload) : encodeFrame p = .ok (lengthByte p :: p) :=
  if_neg (Nat.not_lt.2 h)

/-- R101. -/
theorem encodeFrame_oversize {p : Bytes} (h : Config.txMaxPayload < p.length) : encodeFrame p = .err .oversize :=
  if_pos h

theorem encodeFrame_eq_ok {p f : Bytes} : encodeFrame p = .ok f ↔ p.length ≤ Config.txMaxPayload ∧ f = lengthByte p :: p := by
  by_cases h : p.length ≤ Config.txMaxPayload
  · simp [encodeFrame_ok h, h, eq_comm]
  · rw [encodeFrame_oversize (Nat.not_le.1 h)]
    simp [h]

/-- R66: the length of every payload the codec produces. -/
theorem encodeMessage_setOutput_length (v : Bool) : (encodeMessage (.h2d (.setOutput v))).length = 2 := rfl

theorem encodeMessage_print_length (t : Text) : (encodeMessage (.d2h (.print t))).length = t.bytes.length + 2 := rfl

theorem encodeMessage_pos (m : Message) : 2 ≤ (encodeMessage m).length := by
  rcases m with ⟨v⟩ | ⟨t⟩
  · exact Nat.le_refl 2
  · rw [encodeMessage_print_length]; omega

end Sys2Proof.Machine
end

