-- ==== Sys2Proof/Laws/PerInstr.lean ====
section
/-! SUPPORT. A law said of every instruction: a well-formed instruction's transfer carries its row's bytes, with the
row's fixed bits as spec/opcode_table.json has them. -/

namespace Sys2Proof

/-- The bytes a row's pattern names and its fixed bits (mask, match), the first byte in bits 15 to 8; a port operation's
row has none. A payload may end after the tag ("shorter gives Truncated"). -/
def Instr.rowPattern : Instr → Nat × BitVec 16 × BitVec 16
  | .rxLen0 => (1, 0xFF00#16, 0#16)
  | .rxLen _ | .rxData _ | .rxLast _ => (1, 0#16, 0#16)
  | .frame _ _ => (1, 0#16, 0#16)
  | .h2dSetOutput v _ => (if v.isSome then 2 else 1, 0xFFFE#16, 0#16)
  | .h2dBadBool _ _ => (2, 0xFF00#16, 0#16)
  | .h2dReservedTag _ _ => (1, 0#16, 0#16)
  | .d2hPrint n _ => (if n.isSome then 2 else 1, 0xFF00#16, 0#16)
  | .d2hReservedTag _ _ => (1, 0#16, 0#16)
  | .feed _ | .reset | .encf _ | .encSetOutput _ | .encPrint _ | .dec _ | .decH2D _ | .decD2H _ | .rxstep _
  | .send _ => (0, 0#16, 0#16)

/-- The first two bytes, the first one more significant; an absent byte counts as 0. -/
def leadWord (data : Bytes) : BitVec 16 := data.headD 0#8 ++ data.tail.headD 0#8

/-- A tag byte alone. -/
theorem leadWord_tag_alone (m : BitVec 16) : (Config.tag ++ (0#8 : Byte)) &&& m = 0#16 := by
  rw [show Config.tag ++ (0#8 : Byte) = 0#16 from rfl]
  exact BitVec.zero_and

theorem leadWord_tag_mask : ∀ x : Byte, (Config.tag ++ x) &&& 0xFF00#16 = 0#16 := by decide

theorem leadWord_bool_mask : ∀ v : Bool, (Config.tag ++ boolByte v) &&& 0xFFFE#16 = 0#16 := by decide

namespace Laws.RowBytes

/-- The instruction's own transfer is in its row's pattern. -/
def Statement (i : Instr) : Prop :=
  i.wellFormed = true → ∃ x, encode i = some x ∧
    i.rowPattern.1 ≤ x.data.length ∧ leadWord x.data &&& i.rowPattern.2.1 = i.rowPattern.2.2

theorem rxLen0 : Statement .rxLen0 := fun _ => ⟨_, rfl, by decide⟩
theorem rxLen (l : Byte) : Statement (.rxLen l) := fun _ => ⟨_, rfl, Nat.le_refl 1, BitVec.and_zero⟩
theorem rxData (d : Byte) : Statement (.rxData d) := fun _ => ⟨_, rfl, Nat.le_refl 1, BitVec.and_zero⟩
theorem rxLast (d : Byte) : Statement (.rxLast d) := fun _ => ⟨_, rfl, Nat.le_refl 1, BitVec.and_zero⟩
theorem frame (l : Byte) (payload : Bytes) : Statement (.frame l payload) :=
  fun h => ⟨_, dif_pos (beq_iff_eq.1 h), Nat.le_add_left _ _, BitVec.and_zero⟩
theorem h2dSetOutput (v : Option Bool) (rest : Bytes) : Statement (.h2dSetOutput v rest) := fun _ =>
  match v with
  | none => ⟨_, rfl, Nat.le_refl 1, leadWord_tag_alone _⟩
  | some v => ⟨_, rfl, Nat.le_add_left _ _, leadWord_bool_mask v⟩
theorem h2dBadBool (x : Byte) (rest : Bytes) : Statement (.h2dBadBool x rest) :=
  fun _ => ⟨_, rfl, Nat.le_add_left _ _, leadWord_tag_mask x⟩
theorem h2dReservedTag (t : Byte) (rest : Bytes) : Statement (.h2dReservedTag t rest) :=
  fun _ => ⟨_, rfl, Nat.le_add_left _ _, BitVec.and_zero⟩
theorem d2hPrint (n : Option Byte) (rest : Bytes) : Statement (.d2hPrint n rest) := fun _ =>
  match n with
  | none => ⟨_, rfl, Nat.le_refl 1, leadWord_tag_alone _⟩
  | some n => ⟨_, rfl, Nat.le_add_left _ _, leadWord_tag_mask n⟩
theorem d2hReservedTag (t : Byte) (rest : Bytes) : Statement (.d2hReservedTag t rest) :=
  fun _ => ⟨_, rfl, Nat.le_add_left _ _, BitVec.and_zero⟩
theorem feed (b : Byte) : Statement (.feed b) := fun _ => ⟨_, rfl, Nat.zero_le _, BitVec.and_zero⟩
theorem reset : Statement .reset := fun _ => ⟨_, rfl, Nat.zero_le _, BitVec.and_zero⟩
theorem encf (p : Bytes) : Statement (.encf p) :=
  fun h => ⟨_, dif_pos (of_decide_eq_true h), Nat.zero_le _, BitVec.and_zero⟩
theorem encSetOutput (v : Bool) : Statement (.encSetOutput v) := fun _ => ⟨_, rfl, Nat.zero_le _, BitVec.and_zero⟩
theorem encPrint (t : Text) : Statement (.encPrint t) := fun _ => ⟨_, rfl, Nat.zero_le _, BitVec.and_zero⟩
theorem dec (p : Bytes) : Statement (.dec p) := fun _ => ⟨_, rfl, Nat.zero_le _, BitVec.and_zero⟩
theorem decH2D (p : Bytes) : Statement (.decH2D p) := fun _ => ⟨_, rfl, Nat.zero_le _, BitVec.and_zero⟩
theorem decD2H (p : Bytes) : Statement (.decD2H p) := fun _ => ⟨_, rfl, Nat.zero_le _, BitVec.and_zero⟩
theorem rxstep (b : Byte) : Statement (.rxstep b) := fun _ => ⟨_, rfl, Nat.zero_le _, BitVec.and_zero⟩
theorem send (m : Message) : Statement (.send m) := fun _ =>
  match m with
  | .h2d (.setOutput _) => ⟨_, rfl, Nat.zero_le _, BitVec.and_zero⟩
  | .d2h (.print _) => ⟨_, rfl, Nat.zero_le _, BitVec.and_zero⟩

end Laws.RowBytes

end Sys2Proof
end

