-- ==== Sys2Proof/Laws/Step.lean ====
section
/-! SUPPORT. What each instruction can do when it answers a next state, and what a step can do: said once, cited by
every later proof instead of unfolding `exec` or `step`. -/

namespace Sys2Proof.Machine

/-! ### Feeding instructions -/

theorem exec_feed {s : State} {b : Byte} {q : Parser} {r : Option Bytes} (h : feedParser s.parser b = .next (q, r)) :
    exec (.feed b) s = .next { s with parser := q, window := windowOf r, result := .fed r } := by
  simp [exec, execFeed, feedState, h, record]

theorem exec_feed_cases {s t : State} {b : Byte} (h : exec (.feed b) s = .next t) :
    ∃ q r, feedParser s.parser b = .next (q, r) ∧
      t = { s with parser := q, window := windowOf r, result := .fed r } := by
  obtain ⟨⟨s1, r⟩, h1, h2⟩ := andThen_eq_next.1 h
  obtain ⟨⟨q, r'⟩, h3, h4⟩ := andThen_eq_next.1 h1
  cases h4; cases h2
  exact ⟨q, r, h3, rfl⟩

/-- A received-byte row in its class is FEED of its byte (R80). -/
theorem inClass_eq {s : State} {b : Byte} {c : RxClass} (h : rxClass s.parser.el s.parser.wc b = some c)
    (k : Answer State) : inClass s b c k = k := by simp [inClass, h]

theorem inClass_cases {s t : State} {b : Byte} {c : RxClass} {k : Answer State} (h : inClass s b c k = .next t) :
    rxClass s.parser.el s.parser.wc b = some c ∧ k = .next t := by
  unfold inClass at h
  split at h
  · split at h
    · exact ⟨by simp_all, h⟩
    · cases h
  · cases h

theorem exec_rxLen0_eq_feed {s : State} (h : rxClass s.parser.el s.parser.wc 0x00#8 = some .len0) :
    exec .rxLen0 s = exec (.feed 0x00#8) s := by
  simp [exec, execRxLen0, inClass_eq h, execFeed, feedState, feedParser, h, finishFeed, rxLen0Op, record]

theorem exec_rxLen_eq_feed {s : State} {l : Byte} (h : rxClass s.parser.el s.parser.wc l = some .len) :
    exec (.rxLen l) s = exec (.feed l) s := by
  simp [exec, execRxLen, inClass_eq h, execFeed, feedState, feedParser, h, finishFeed, rxLenOp, record]

theorem exec_rxData_eq_feed {s : State} {d : Byte} (h : rxClass s.parser.el s.parser.wc d = some .data) :
    exec (.rxData d) s = exec (.feed d) s := by
  simp only [exec, execRxData, inClass_eq h, execFeed, feedState, feedParser, h, finishFeed]
  cases rxDataOp s.parser d <;> rfl

theorem exec_rxLast_eq_feed {s : State} {d : Byte} (h : rxClass s.parser.el s.parser.wc d = some .last) :
    exec (.rxLast d) s = exec (.feed d) s := by
  simp only [exec, execRxLast, inClass_eq h, execFeed, feedState, feedParser, h, finishFeed]
  cases rxLastOp s.parser d <;> rfl

theorem exec_frame {s : State} {l : Byte} {payload : Bytes} (hl : payload.length = l.toNat) {q : Parser}
    {rs : List (Option Bytes)} (h : runFeeds s.parser (l :: payload) = .next (q, rs)) :
    exec (.frame l payload) s = .next { s with parser := q, window := windowOf rs.getLast?.join, result := .fedEach rs } := by
  simp [exec, execFrame, hl, h]

theorem exec_frame_cases {s t : State} {l : Byte} {payload : Bytes} (h : exec (.frame l payload) s = .next t) :
    payload.length = l.toNat ∧ ∃ q rs, runFeeds s.parser (l :: payload) = .next (q, rs) ∧
      t = { s with parser := q, window := windowOf rs.getLast?.join, result := .fedEach rs } := by
  change execFrame l payload s = _ at h
  unfold execFrame at h
  split at h
  · obtain ⟨⟨q, rs⟩, h1, h2⟩ := andThen_eq_next.1 h
    cases h2
    exact ⟨‹_›, q, rs, h1, rfl⟩
  · cases h

theorem exec_rxstep_nothing {s : State} {b : Byte} {q : Parser} (h : feedParser s.parser b = .next (q, none)) :
    exec (.rxstep b) s = .next (handOver { s with parser := q, window := none } none .nothing) := by
  simp [exec, execRxstep, feedState, h, windowOf]

/-- R140: the result of the `DEC` in an `RXSTEP`. -/
def rxResultOf : DecResult → RxResult
  | .ok m => .delivered m
  | .err e => .failed e

theorem exec_rxstep_completed {s : State} {b : Byte} {q : Parser} {payload : Bytes}
    (h : feedParser s.parser b = .next (q, some payload)) :
    exec (.rxstep b) s = .next (handOver { s with parser := q, window := some (lengthByte payload) } (some payload)
      (rxResultOf (decodeFor s.role payload))) := by
  simp only [exec, execRxstep, feedState, h, andThen_next, windowOf, Option.map_some]
  cases decodeFor s.role payload <;> rfl

/-- R140: everything an `RXSTEP` can do. -/
theorem exec_rxstep_cases {s t : State} {b : Byte} (h : exec (.rxstep b) s = .next t) :
    ∃ q r x, feedParser s.parser b = .next (q, r) ∧
      t = handOver { s with parser := q, window := windowOf r } r x ∧
      x = (match r with | none => RxResult.nothing | some payload => rxResultOf (decodeFor s.role payload)) := by
  obtain ⟨⟨s1, r⟩, h1, -⟩ := andThen_eq_next.1 h
  obtain ⟨⟨q, r'⟩, h3, h4⟩ := andThen_eq_next.1 h1
  cases h4
  cases r with
  | none =>
    rw [exec_rxstep_nothing h3] at h
    cases h
    exact ⟨q, none, _, h3, rfl, rfl⟩
  | some payload =>
    rw [exec_rxstep_completed h3] at h
    cases h
    exact ⟨q, some payload, _, h3, rfl, rfl⟩

/-! ### Instructions that do not touch the parser -/

/-- R16, R20, R123: they leave everything but the result and, for `SEND`, the frames written. -/
theorem exec_pure_cases {i : Instr} {s t : State} (hi : i.writesParser = false) (h : exec i s = .next t) :
    ∃ r fs, t = { s with result := r, txFrames := s.txFrames ++ fs } ∧ ((∀ m, i ≠ .send m) → fs = []) := by
  cases i with
  | rxLen0 | rxLen | rxData | rxLast | frame | feed | reset | rxstep => cases hi
  | h2dSetOutput | d2hPrint | encf | encSetOutput | encPrint | dec | decH2D | decD2H =>
    cases h
    exact ⟨_, [], by simp only [List.append_nil]; rfl, fun _ => rfl⟩
  | h2dBadBool x rest | h2dReservedTag x rest | d2hReservedTag x rest =>
    simp only [exec, execH2dBadBool, execH2dReservedTag, execD2hReservedTag] at h
    split at h <;> cases h
    exact ⟨_, [], by simp only [List.append_nil]; rfl, fun _ => rfl⟩
  | send m =>
    simp only [exec, execSend] at h
    split at h
    · split at h <;> cases h
      · exact ⟨_, [_], rfl, fun hm => absurd rfl (hm m)⟩
      · exact ⟨_, [], by simp only [List.append_nil]; rfl, fun _ => rfl⟩
    · cases h

/-- R142. -/
theorem exec_send {s : State} {m : Message} (hd : outboundOf s.role m = true) (hr : Representable m) :
    exec (.send m) s = .next { s with
      result := .send (.sent (lengthByte (encodeMessage m) :: encodeMessage m)),
      txFrames := s.txFrames ++ [lengthByte (encodeMessage m) :: encodeMessage m] } := by
  simp [exec, execSend, hd, encodeFrame_ok hr]

/-- R142: everything a `SEND` can do. -/
theorem exec_send_cases {s t : State} {m : Message} (h : exec (.send m) s = .next t) :
    outboundOf s.role m = true ∧
    ((∃ f, encodeFrame (encodeMessage m) = .ok f ∧
        t = { s with result := .send (.sent f), txFrames := s.txFrames ++ [f] }) ∨
      (∃ e, encodeFrame (encodeMessage m) = .err e ∧ t = { s with result := .send (.failed e) })) := by
  change execSend m s = _ at h
  unfold execSend at h
  split at h
  · refine ⟨‹_›, ?_⟩
    split at h <;> cases h
    · exact .inl ⟨_, ‹_›, rfl⟩
    · exact .inr ⟨_, ‹_›, rfl⟩
  · cases h

/-! ### Any instruction -/

/-- What an instruction can do to the parser: feed it bytes, reset it, or leave it. -/
theorem exec_parser_cases {i : Instr} {s t : State} (h : exec i s = .next t) :
    (∃ bs rs, bs ≠ [] ∧ runFeeds s.parser bs = .next (t.parser, rs) ∧ t.window = windowOf rs.getLast?.join) ∨
    (t.parser = { s.parser with el := 0#8, wc := 0#8 } ∧ t.window = s.window) ∨
    (t.parser = s.parser ∧ t.window = s.window) := by
  have feed_case : ∀ {b : Byte} {q : Parser} {r : Option Bytes}, feedParser s.parser b = .next (q, r) →
      t.parser = q → t.window = windowOf r →
      ∃ bs rs, bs ≠ [] ∧ runFeeds s.parser bs = .next (t.parser, rs) ∧ t.window = windowOf rs.getLast?.join := by
    intro b q r hf hp hw
    exact ⟨[b], [r], List.cons_ne_nil _ _, by rw [runFeeds_cons hf, hp]; rfl, by simp [hw]⟩
  have feed_exec : ∀ {b : Byte}, exec (.feed b) s = .next t →
      ∃ bs rs, bs ≠ [] ∧ runFeeds s.parser bs = .next (t.parser, rs) ∧ t.window = windowOf rs.getLast?.join := by
    intro b hb
    obtain ⟨q, r, hf, rfl⟩ := exec_feed_cases hb
    exact feed_case hf rfl rfl
  cases hi : i.writesParser with
  | false =>
    obtain ⟨r, fs, rfl, -⟩ := exec_pure_cases hi h
    exact .inr (.inr ⟨rfl, rfl⟩)
  | true =>
    cases i with
    | rxLen0 => exact .inl (feed_exec (exec_rxLen0_eq_feed (inClass_cases h).1 ▸ h))
    | rxLen => exact .inl (feed_exec (exec_rxLen_eq_feed (inClass_cases h).1 ▸ h))
    | rxData => exact .inl (feed_exec (exec_rxData_eq_feed (inClass_cases h).1 ▸ h))
    | rxLast => exact .inl (feed_exec (exec_rxLast_eq_feed (inClass_cases h).1 ▸ h))
    | feed => exact .inl (feed_exec h)
    | rxstep =>
      obtain ⟨q, r, x, hf, rfl, -⟩ := exec_rxstep_cases h
      exact .inl (feed_case hf rfl rfl)
    | frame l payload =>
      obtain ⟨-, q, rs, hq, rfl⟩ := exec_frame_cases h
      exact .inl ⟨l :: payload, rs, List.cons_ne_nil _ _, hq, rfl⟩
    | reset =>
      cases h
      exact .inr (.inl ⟨rfl, rfl⟩)
    | h2dSetOutput | encf | encSetOutput | encPrint | dec | decH2D | decD2H | h2dBadBool | h2dReservedTag
    | d2hReservedTag | d2hPrint | send => cases hi

/-! ### Steps -/

/-- R201: nothing offered. -/
theorem step_quiescent {s : State} (h : s.pending = []) : step s = .next (record s .none) := by simp [step, h]

theorem step_offered {s : State} {x : Transfer} {rest : List Transfer} {i : Instr} (h : s.pending = x :: rest)
    (hp : x.presentIn s.role = true) (hd : decode s.parser.el s.parser.wc x = .ok i) :
    step s = exec i { s with pending := rest } := by
  simp [step, h, hp, hd]

/-- Received bytes aside, every transfer is an instruction, whatever the parser's state (R65, R177). -/
theorem decode_total (el wc : Byte) (x : Transfer) : (∃ b, x = .rxClass b) ∨ ∃ i, decode el wc x = .ok i := by
  cases x with
  | rxClass b => exact .inl ⟨b, rfl⟩
  | wireFrame | payloadH2D | payloadD2H | feed | rst | encf | encSetOutput | encPrint | dec | decH2D | decD2H | rxstep
  | sendBool | sendText => exact .inr ⟨_, rfl⟩

/-- Everything a step can do when it answers a next state. -/
theorem step_cases {s t : State} (h : step s = .next t) :
    (s.pending = [] ∧ t = record s .none) ∨
    ∃ x rest i, s.pending = x :: rest ∧ x.presentIn s.role = true ∧
      decode s.parser.el s.parser.wc x = .ok i ∧ exec i { s with pending := rest } = .next t := by
  unfold step at h
  split at h
  · cases h; exact .inl ⟨‹_›, rfl⟩
  · split at h
    · split at h
      · exact .inr ⟨_, _, _, ‹_›, ‹_›, ‹_›, h⟩
      · cases h
    · cases h

end Sys2Proof.Machine
end

