-- ==== Sys2Proof/Laws/Utf8.lean ====
section
/-! SUPPORT. The scan of a text against the rows of R119's table. -/

namespace Sys2Proof.Machine

/-- A byte begins at most one row, and `utf8Follow` gives that row's other ranges. -/
theorem utf8Follow_of_row {r : ByteRange} {rest : List ByteRange} {b : Byte} (hrow : (r :: rest) ∈ utf8Table)
    (hb : inRange r b = true) : utf8Follow b = some rest := by
  have key : ∀ b : Byte, ∀ row ∈ utf8Table,
      ∀ r ∈ row.head?, inRange r b = true → utf8Follow b = some row.tail := by
    decide +kernel
  exact key b _ hrow r rfl hb

/-- What `utf8Follow` answers is the tail of a row whose first range holds the byte. -/
theorem row_of_utf8Follow {b : Byte} {rest : List ByteRange} (h : utf8Follow b = some rest) :
    ∃ r, (r :: rest) ∈ utf8Table ∧ inRange r b = true := by
  obtain ⟨row, hrow, h⟩ := List.exists_of_findSome?_eq_some h
  cases row with
  | nil => cases h
  | cons r rs =>
    simp only at h
    split at h
    · cases h; exact ⟨r, hrow, ‹_›⟩
    · cases h

/-- Bytes in the ranges still needed are consumed. -/
theorem utf8Scan_append {rs : List ByteRange} {s t : Bytes} (h : List.Forall₂ (fun r b => inRange r b = true) rs s) :
    utf8Scan rs (s ++ t) = utf8Scan [] t := by
  induction h with
  | nil => rfl
  | cons hr _ ih => simp [utf8Scan, hr, ih]

/-- A valid rest of a sequence in progress splits into the bytes it needs and a valid text. -/
theorem utf8Scan_split {rs : List ByteRange} {t : Bytes} (h : utf8Scan rs t = true) :
    ∃ s u, t = s ++ u ∧ List.Forall₂ (fun r b => inRange r b = true) rs s ∧ utf8Scan [] u = true := by
  induction rs generalizing t with
  | nil => exact ⟨[], t, rfl, .nil, h⟩
  | cons r rs ih =>
    cases t with
    | nil => cases h
    | cons b t =>
      simp only [utf8Scan, Bool.and_eq_true] at h
      obtain ⟨s, u, rfl, hs, hu⟩ := ih h.2
      exact ⟨b :: s, u, rfl, .cons h.1 hs, hu⟩

end Sys2Proof.Machine
end

