-- ==== Sys2Proof/Tests/Slice0.lean ====
section
/-! SUPPORT. Tests: ill-formed terms refused, words of every family decoded, single steps with the expected results of
spec/95_test_vectors.md (a name ends in the vector's id), and for every obligation with hypotheses a state and operands
that meet them. -/

namespace Sys2Proof.Tests

open Sys2Proof Sys2Proof.Machine

/-! ### Helpers -/

/-- An instance with the given parser state and nothing else. -/
def at_ (r : Role) (el wc : Byte) (buf : Memory) : State :=
  { State.resetAs r with parser := { el := el, wc := wc, buf := buf } }

def resultIn (x : Answer State) : Option OpResult :=
  match x with
  | .next t => some t.result
  | .fault _ => none
  | .refused _ => none

def parserIn (x : Answer State) : Option Parser :=
  match x with
  | .next t => some t.parser
  | .fault _ => none
  | .refused _ => none

def sentIn (x : Answer State) : Option (List Bytes) :=
  match x with
  | .next t => some t.txFrames
  | .fault _ => none
  | .refused _ => none

/-- "hi" -/
def hi : Text := ⟨[0x68#8, 0x69#8], by decide, by decide⟩

/-- 252 times 'a': the longest text that frames (R66). -/
def t252 : Text := ⟨List.replicate 252 0x61#8, by decide +kernel, by decide +kernel⟩

/-- 253 times 'a' (V-C8). -/
def t253 : Text := ⟨List.replicate 253 0x61#8, by decide +kernel, by decide +kernel⟩

theorem t252_length : t252.bytes.length = 252 := List.length_replicate
theorem t253_length : t253.bytes.length = 253 := List.length_replicate

theorem t252_payload_length : (encodeMessage (.d2h (.print t252))).length = 254 := by
  show t252.bytes.length + 2 = 254
  rw [t252_length]

theorem t253_payload_length : (encodeMessage (.d2h (.print t253))).length = 255 := by
  show t253.bytes.length + 2 = 255
  rw [t253_length]

theorem t253_does_not_frame : encodeFrame (encodeMessage (.d2h (.print t253))) = .err .oversize :=
  if_pos (by rw [t253_payload_length]; decide)

/-! ### WellFormed: one ill-formed term for each check, refused -/

theorem test_wf_rxLen_zero : (Instr.rxLen 0x00#8).wellFormed = false := by decide
theorem test_wf_frame_short : (Instr.frame 0x02#8 [0x00#8]).wellFormed = false := by decide
theorem test_wf_frame_long : (Instr.frame 0x01#8 [0x00#8, 0x01#8]).wellFormed = false := by decide
theorem test_wf_badbool_one : (Instr.h2dBadBool 0x01#8 []).wellFormed = false := by decide
theorem test_wf_h2d_tag_zero : (Instr.h2dReservedTag 0x00#8 []).wellFormed = false := by decide
theorem test_wf_d2h_tag_zero : (Instr.d2hReservedTag 0x00#8 []).wellFormed = false := by decide
theorem test_wf_setOutput_nothing_after_missing : (Instr.h2dSetOutput none [0x01#8]).wellFormed = false := by decide
theorem test_wf_print_nothing_after_missing : (Instr.d2hPrint none [0x68#8]).wellFormed = false := by decide
theorem test_wf_encf_too_long : (Instr.encf (List.replicate 512 0xAB#8)).wellFormed = false := by decide +kernel
theorem test_text_invalid_refused : Text.ofBytes? [0xFF#8] = none := by decide
theorem test_text_too_long_refused : Text.ofBytes? (List.replicate 256 0x61#8) = none := by decide +kernel

/-! ### Decode: words of the spec's layouts (R50, R53, R58, R59, R145), every constructor once -/

theorem test_decode_rxLen0 : decode 0#8 0#8 (.rxClass 0b00000000#8) = .ok .rxLen0 := rfl
theorem test_decode_rxLen : decode 0#8 0#8 (.rxClass 0b11111111#8) = .ok (.rxLen 255#8) := rfl
theorem test_decode_rxData : decode 255#8 253#8 (.rxClass 0b10000001#8) = .ok (.rxData 0x81#8) := rfl
theorem test_decode_rxLast : decode 255#8 254#8 (.rxClass 0b10000001#8) = .ok (.rxLast 0x81#8) := rfl
theorem test_decode_frame : decode 0#8 0#8 (.wireFrame ⟨[0b00000000#8, 0b00000001#8], by decide⟩) =
    .ok (.frame 2#8 [0#8, 1#8]) := rfl
theorem test_decode_setOutput : decode 0#8 0#8 (.payloadH2D 0b00000000#8 [0b00000000#8]) =
    .ok (.h2dSetOutput (some false) []) := rfl
theorem test_decode_badBool : decode 0#8 0#8 (.payloadH2D 0b00000000#8 [0b11111111#8, 0x55#8]) =
    .ok (.h2dBadBool 0xFF#8 [0x55#8]) := rfl
theorem test_decode_h2dTag : decode 0#8 0#8 (.payloadH2D 0b10000000#8 []) = .ok (.h2dReservedTag 0x80#8 []) := rfl
theorem test_decode_print : decode 0#8 0#8 (.payloadD2H 0b00000000#8 [0b00000001#8, 0x68#8]) =
    .ok (.d2hPrint (some 1#8) [0x68#8]) := rfl
theorem test_decode_d2hTag : decode 0#8 0#8 (.payloadD2H 0b00000001#8 [0x68#8]) =
    .ok (.d2hReservedTag 1#8 [0x68#8]) := rfl
theorem test_decode_feed : decode 0#8 0#8 (.feed 0xA5#8) = .ok (.feed 0xA5#8) := rfl
theorem test_decode_reset : decode 0#8 0#8 .rst = .ok .reset := rfl
theorem test_decode_encf : decode 0#8 0#8 (.encf ⟨[0x7F#8], by decide⟩) = .ok (.encf [0x7F#8]) := rfl
theorem test_decode_encSetOutput : decode 0#8 0#8 (.encSetOutput true) = .ok (.encSetOutput true) := rfl
theorem test_decode_encPrint : decode 0#8 0#8 (.encPrint hi) = .ok (.encPrint hi) := rfl
theorem test_decode_dec : decode 0#8 0#8 (.dec [0x00#8]) = .ok (.dec [0x00#8]) := rfl
theorem test_decode_decH2D : decode 0#8 0#8 (.decH2D []) = .ok (.decH2D []) := rfl
theorem test_decode_decD2H : decode 0#8 0#8 (.decD2H [0x05#8]) = .ok (.decD2H [0x05#8]) := rfl
theorem test_decode_rxstep : decode 3#8 1#8 (.rxstep 0x00#8) = .ok (.rxstep 0x00#8) := rfl
theorem test_decode_sendBool : decode 0#8 0#8 (.sendBool false) = .ok (.send (.h2d (.setOutput false))) := rfl
theorem test_decode_sendText : decode 0#8 0#8 (.sendText hi) = .ok (.send (.d2h (.print hi))) :=
  rfl
theorem test_decode_no_class : decode 2#8 2#8 (.rxClass 0x00#8) = .error .noRxClass := rfl
theorem test_decode_print_tag_only : decode 0#8 0#8 (.payloadD2H 0b00000000#8 []) = .ok (.d2hPrint none []) := rfl
theorem test_decode_setOutput_tag_only : decode 0#8 0#8 (.payloadH2D 0b00000000#8 []) = .ok (.h2dSetOutput none []) :=
  rfl
theorem test_frame_bytes_s1 : (Transfer.wireFrame ⟨[0x00#8, 0x01#8], by decide⟩).data = [0x02#8, 0x00#8, 0x01#8] := rfl
theorem test_text_bytes : (Transfer.sendText hi).data = [0x02#8, 0x68#8, 0x69#8] := rfl
theorem test_encode_encf_too_long : encode (.encf (List.replicate 512 0xAB#8)) = none := by
  decide +kernel
theorem test_tableWord_first_byte_high : decodeTableWord 16 0x0100 = some (.h2dReservedTag 0x01#8 [0x00#8]) := rfl

/-! ### Single steps -/

theorem test_rxLen0_vp1 : parserIn (exec .rxLen0 State.reset) = some ⟨0#8, 0#8, []⟩ := by decide
theorem test_rxLen_s1 : parserIn (exec (.rxLen 2#8) State.reset) = some ⟨2#8, 0#8, []⟩ := by decide
theorem test_rxData_s1 : parserIn (exec (.rxData 0x00#8) (at_ .device 2#8 0#8 [])) =
    some ⟨2#8, 1#8, [(0, 0x00#8)]⟩ := by decide
theorem test_rxData_stale_vp9 : parserIn (exec (.rxData 0x22#8) (at_ .device 3#8 1#8 [(0, 1#8), (1, 2#8), (2, 3#8)])) =
    some ⟨3#8, 2#8, [(0, 1#8), (1, 0x22#8), (2, 3#8)]⟩ := by decide
theorem test_rxLast_vp10 : resultIn (exec (.rxLast 0x00#8) (at_ .device 2#8 1#8 [(0, 0x55#8)])) =
    some (.fed (some [0x55#8, 0x00#8])) := by decide
theorem test_rxLast_idle_vp10 : parserIn (exec (.rxLast 0x00#8) (at_ .device 2#8 1#8 [(0, 0x55#8)])) =
    some ⟨0#8, 0#8, [(0, 0x55#8), (1, 0x00#8)]⟩ := by decide
theorem test_frame_s1 : resultIn (exec (.frame 2#8 [0x00#8, 0x01#8]) State.reset) =
    some (.fedEach [none, none, some [0x00#8, 0x01#8]]) := by decide
theorem test_frame_in_frame_vp8 : resultIn (exec (.frame 2#8 [0x33#8, 0x44#8]) (at_ .device 2#8 1#8 [(0, 0x11#8)])) =
    some (.fedEach [some [0x11#8, 0x02#8], none, none]) := by decide
theorem test_h2dSetOutput_vd2 : resultIn (exec (.h2dSetOutput none []) State.reset) =
    some (.decoded (.err .truncated)) := by decide
theorem test_h2dSetOutput_vd9 : resultIn (exec (.h2dSetOutput (some true) [0x00#8]) State.reset) =
    some (.decoded (.err .trailingBytes)) := by decide
theorem test_h2dBadBool_vd10 : resultIn (exec (.h2dBadBool 0x02#8 [0x00#8]) State.reset) =
    some (.decoded (.err .invalidBool)) := by decide
theorem test_h2dReservedTag_vd6 : resultIn (exec (.h2dReservedTag 0xFF#8 [0x00#8]) State.reset) =
    some (.decoded (.err .unknownTag)) := by decide
theorem test_d2hPrint_vd12 : resultIn (exec (.d2hPrint none []) State.reset) =
    some (.decoded (.err .truncated)) := by decide
theorem test_d2hPrint_vd30 : resultIn (exec (.d2hPrint (some 1#8) [0xFF#8, 0x69#8]) State.reset) =
    some (.decoded (.err .invalidUtf8)) := by decide
theorem test_d2hReservedTag_vd17 : resultIn (exec (.d2hReservedTag 0x05#8 []) State.reset) =
    some (.decoded (.err .unknownTag)) := by decide
theorem test_feed_vp5b : resultIn (exec (.feed 0x02#8) (at_ .device 3#8 2#8 [(0, 0xAA#8), (1, 0xBB#8)])) =
    some (.fed (some [0xAA#8, 0xBB#8, 0x02#8])) := by decide
theorem test_feed_vp2 : parserIn (exec (.feed 0x00#8) State.reset) = some ⟨0#8, 0#8, []⟩ := by decide
theorem test_reset_vp11 : parserIn (exec .reset (at_ .device 5#8 3#8 [(0, 7#8)])) = some ⟨0#8, 0#8, [(0, 7#8)]⟩ := by
  decide
theorem test_encf_ve4 : resultIn (exec (.encf []) State.reset) = some (.framed (.ok [0x00#8])) := by decide
theorem test_encf_ve6 : resultIn (exec (.encf (List.replicate 255 0xAB#8)) State.reset) =
    some (.framed (.err .oversize)) := by decide +kernel
theorem test_encSetOutput_vc1 : resultIn (exec (.encSetOutput true) State.reset) = some (.encoded [0x00#8, 0x01#8]) := by
  decide
theorem test_encPrint_vc3 : resultIn (exec (.encPrint hi) State.reset) =
    some (.encoded [0x00#8, 0x02#8, 0x68#8, 0x69#8]) := by decide
theorem test_dec_device_vd15 : resultIn (exec (.dec [0x00#8, 0x01#8]) (State.resetAs .device)) =
    some (.decoded (.ok (.h2d (.setOutput true)))) := by decide
theorem test_dec_host_vd15 : resultIn (exec (.dec [0x00#8, 0x01#8]) (State.resetAs .host)) =
    some (.decoded (.err .truncated)) := by decide
theorem test_decH2D_vd4 : resultIn (exec (.decH2D [0x01#8]) State.reset) = some (.decoded (.err .unknownTag)) := by decide
theorem test_decH2D_vd8 : resultIn (exec (.decH2D [0x00#8, 0xFF#8]) State.reset) =
    some (.decoded (.err .invalidBool)) := by decide
theorem test_decD2H_vd23 : resultIn (exec (.decD2H [0x00#8, 0x03#8, 0xED#8, 0xA0#8, 0x80#8]) State.reset) =
    some (.decoded (.err .invalidUtf8)) := by decide
theorem test_decD2H_vd16 : resultIn (exec (.decD2H [0x00#8, 0x03#8, 0xFF#8]) State.reset) =
    some (.decoded (.err .truncated)) := by decide
theorem test_rxstep_p5 : resultIn (exec (.rxstep 0x01#8) (at_ .device 2#8 1#8 [(0, 0x07#8)])) =
    some (.rxstep (some [0x07#8, 0x01#8]) (.failed .unknownTag)) := by decide
theorem test_rxstep_p1 : resultIn (exec (.rxstep 0x01#8) (at_ .device 2#8 1#8 [(0, 0x00#8)])) =
    some (.rxstep (some [0x00#8, 0x01#8]) (.delivered (.h2d (.setOutput true)))) := by decide
theorem test_send_p6 : sentIn (exec (.send (.d2h (.print hi))) (State.resetAs .device)) =
    some [[0x04#8, 0x00#8, 0x02#8, 0x68#8, 0x69#8]] := by decide
theorem test_send_vc8 : resultIn (exec (.send (.d2h (.print t253))) (State.resetAs .device)) =
    some (.send (.failed .oversize)) := by decide +kernel

/-! V-D20 to V-D27: the check of R119. -/

theorem test_utf8_vd20 : validUtf8 [0xC3#8] = false := by decide
theorem test_utf8_vd21 : validUtf8 [0xC0#8, 0x80#8] = false := by decide
theorem test_utf8_vd22 : validUtf8 [0xE0#8, 0x80#8, 0x80#8] = false := by decide
theorem test_utf8_vd24 : validUtf8 [0xF4#8, 0x90#8, 0x80#8, 0x80#8] = false := by decide
theorem test_utf8_vd25 : validUtf8 [0xC3#8, 0xA9#8] = true := by decide
theorem test_utf8_vd26 : validUtf8 [0xE2#8, 0x82#8, 0xAC#8] = true := by decide
theorem test_utf8_vd27 : validUtf8 [0xF0#8, 0x9F#8, 0x98#8, 0x80#8] = true := by decide

/-! ### What meets the obligations' hypotheses -/

theorem witness_DecodeOfEncode : (Instr.rxData 0xAA#8).wellFormed = true ∧
    (Instr.rxData 0xAA#8).inMode 255#8 253#8 = true ∧
    (Instr.rxLast 0xAA#8).inMode 255#8 254#8 = true ∧ (Instr.send (.d2h (.print hi))).inMode 255#8 255#8 = true := by
  decide

theorem witness_EncodeOfDecode : decode 1#8 0#8 (.rxClass 0x00#8) = .ok (.rxLast 0x00#8) := rfl

theorem witness_TableWordRunsFirst : decodeTableWord 8 0xFF = some (.rxLen 0xFF#8) ∧
    decodeTableWord 16 0x0002 = some (.h2dBadBool 0x02#8 []) := ⟨rfl, rfl⟩

theorem witness_ReceivedByteClasses : Parser.InFrame ⟨0#8, 0#8, []⟩ ∧ Parser.InFrame ⟨1#8, 0#8, []⟩ ∧
    Parser.InFrame ⟨255#8, 254#8, []⟩ ∧ rxClass 1#8 0#8 0#8 = some .last ∧ rxClass 2#8 0#8 0#8 = some .data ∧
    rxClass 255#8 253#8 0#8 = some .data ∧ rxClass 255#8 254#8 0#8 = some .last ∧ rxClass 0#8 0#8 1#8 = some .len := by
  unfold Parser.InFrame
  decide

theorem witness_RxLen0Result : State.reset.parser.el = 0#8 := rfl

theorem witness_RxLenResult : State.reset.parser.el = 0#8 ∧ (1#8 : Byte) ≠ 0#8 ∧ (255#8 : Byte) ≠ 0#8 := by decide

theorem witness_RxDataResult :
    ((at_ .host 2#8 0#8 []).parser.el ≠ 0#8 ∧
      (at_ .host 2#8 0#8 []).parser.wc.toNat < (at_ .host 2#8 0#8 []).parser.el.toNat - 1) ∧
    ((at_ .host 255#8 253#8 []).parser.el ≠ 0#8 ∧
      (at_ .host 255#8 253#8 []).parser.wc.toNat < (at_ .host 255#8 253#8 []).parser.el.toNat - 1) := by decide

theorem witness_RxLastResult :
    ((at_ .host 1#8 0#8 []).parser.el ≠ 0#8 ∧
      (at_ .host 1#8 0#8 []).parser.wc.toNat = (at_ .host 1#8 0#8 []).parser.el.toNat - 1) ∧
    ((at_ .host 255#8 254#8 []).parser.el ≠ 0#8 ∧
      (at_ .host 255#8 254#8 []).parser.wc.toNat = (at_ .host 255#8 254#8 []).parser.el.toNat - 1) := by decide

theorem witness_FeedDispatchesToItsClass : (at_ .host 0#8 0#8 []).parser.InFrame ∧
    (at_ .host 2#8 0#8 []).parser.InFrame ∧ (at_ .host 2#8 1#8 [(0, 0#8)]).parser.InFrame := by
  unfold Parser.InFrame
  decide

theorem witness_RowsStopOutsideTheirCondition :
    ((at_ .host 1#8 0#8 []).parser.el ≠ 0#8 ∧
      (at_ .host 1#8 0#8 []).parser.wc.toNat < (at_ .host 1#8 0#8 []).parser.el.toNat ∧
      (at_ .host 1#8 0#8 []).parser.wc.toNat = (at_ .host 1#8 0#8 []).parser.el.toNat - 1) ∧
    (at_ .host 2#8 0#8 []).parser.wc.toNat < (at_ .host 2#8 0#8 []).parser.el.toNat - 1 ∧
    (at_ .host 0#8 0#8 []).parser.el = 0#8 ∧ ([] : Bytes).length ≠ (1#8 : Byte).toNat ∧
    (0#8 : Byte).toNat ≤ 1 ∧ (1#8 : Byte).toNat ≤ 1 := by decide

theorem witness_NoStepPastDeclaredLength :
    ((at_ .host 1#8 1#8 []).parser.el ≠ 0#8 ∧
      (at_ .host 1#8 1#8 []).parser.el.toNat ≤ (at_ .host 1#8 1#8 []).parser.wc.toNat) ∧
    (at_ .host 255#8 255#8 []).parser.el.toNat ≤ (at_ .host 255#8 255#8 []).parser.wc.toNat ∧
    ([0x07#8] : Bytes).length = (1#8 : Byte).toNat := by decide

theorem witness_EmittedPayload :
    ∃ t, exec (.feed 0x01#8) (at_ .device 2#8 1#8 [(0, 0x00#8)]) = .next t ∧ t.result = .fed (some [0x00#8, 0x01#8]) :=
  ⟨_, rfl, rfl⟩

theorem witness_RunOfFrames :
    (∃ q rs u qs, runFeeds Parser.reset [0x02#8] = .next (q, rs) ∧ runFeeds q [0x00#8, 0x01#8] = .next (u, qs)) ∧
    Parser.reset.Idle ∧ 1 ≤ (List.replicate 255 0x07#8).length ∧ (List.replicate 255 0x07#8).length ≤ 255 := by
  refine ⟨⟨_, _, _, _, rfl, rfl⟩, ⟨rfl, rfl⟩, ?_⟩
  rw [List.length_replicate]
  decide

theorem witness_FrameRowResult : ([0x00#8, 0x01#8] : Bytes).length = (2#8 : Byte).toNat ∧
    ([] : Bytes).length = (0#8 : Byte).toNat ∧ (at_ .device 2#8 1#8 [(0, 0x11#8)]).parser.InFrame ∧
    State.reset.parser.InFrame ∧ State.reset.parser.el = 0#8 := by
  unfold Parser.InFrame
  decide

theorem witness_FrameRowIsItsFeeds : ∃ t, exec (.frame 1#8 [0x07#8]) State.reset = .next t := ⟨_, rfl⟩

theorem witness_FramingInverse : Parser.reset.Idle ∧
    (∀ x ∈ ([[0x00#8, 0x01#8], [0x7F#8]] : List Bytes), 1 ≤ x.length ∧ x.length ≤ 254) ∧
    ([[0x00#8, 0x01#8], [0x7F#8]] : List Bytes).map encodeFrame =
      ([[0x02#8, 0x00#8, 0x01#8], [0x01#8, 0x7F#8]] : List Bytes).map EncfResult.ok := by
  unfold Parser.Idle
  decide

theorem witness_FramingInverse_longest :
    ([List.replicate 254 0xAB#8] : List Bytes).map encodeFrame =
      ([0xFE#8 :: List.replicate 254 0xAB#8] : List Bytes).map EncfResult.ok := by decide +kernel

theorem witness_FramesCutAnywhereEmitAtLastByte : Parser.reset.Idle ∧
    (∀ x ∈ ([[0x00#8, 0x01#8], [0x7F#8]] : List Bytes), 1 ≤ x.length ∧ x.length ≤ 255) ∧
    ([[0x02#8], [], [0x00#8, 0x01#8, 0x01#8], [0x7F#8]] : List Bytes).flatten =
      ([[0x00#8, 0x01#8], [0x7F#8]] : List Bytes).flatMap (fun x => BitVec.ofNat 8 x.length :: x) :=
  ⟨⟨rfl, rfl⟩, by decide, rfl⟩

theorem witness_BufferHoldsFrameInProgress : Parser.reset.Idle ∧ ([0xAA#8, 0xBB#8] : Bytes).length < (3#8 : Byte).toNat ∧
    ([] : Bytes).length < (1#8 : Byte).toNat := by
  unfold Parser.Idle
  decide

theorem witness_StaleBytesAreUnobservable :
    (∀ i, i < (1#8 : Byte).toNat → bufByte [(0, 0x55#8), (1, 0x09#8)] i = bufByte [(0, 0x55#8)] i) ∧
    ∃ p' rs, runFeeds ⟨2#8, 1#8, [(0, 0x55#8), (1, 0x09#8)]⟩ [0x00#8] = .next (p', rs) := by
  refine ⟨fun i hi => ?_, _, _, rfl⟩
  obtain rfl : i = 0 := by simpa using hi
  rfl

theorem witness_StoresOneByteAtCursor :
    Instr.feed 0x01#8 ∈ [Instr.feed 0x01#8, .rxstep 0x01#8, .rxLen 0x01#8, .rxData 0x01#8, .rxLast 0x01#8] ∧
    (∃ t, exec (.feed 0x01#8) State.reset = .next t) ∧ (∃ t, exec (.rxLen 0x01#8) State.reset = .next t) ∧
    (∃ t, exec (.rxstep 0x01#8) (at_ .device 2#8 1#8 [(0, 0x00#8)]) = .next t) ∧
    (∃ t, exec (.rxData 0x01#8) (at_ .device 2#8 0#8 []) = .next t) ∧
    (∃ t, exec (.rxLast 0x01#8) (at_ .device 2#8 1#8 []) = .next t) :=
  ⟨List.mem_cons_self, ⟨_, rfl⟩, ⟨_, rfl⟩, ⟨_, rfl⟩, ⟨_, rfl⟩, ⟨_, rfl⟩⟩

theorem witness_PayloadViewUntilNextFeed :
    ∃ t u, exec (.feed 0x01#8) (at_ .device 2#8 1#8 [(0, 0x00#8)]) = .next t ∧
      t.result = .fed (some [0x00#8, 0x01#8]) ∧ (Instr.encf []).writesParser = false ∧ exec (.encf []) t = .next u :=
  ⟨_, _, rfl, rfl, rfl, rfl⟩

/-- A device that has the tag byte of a frame and is offered the next byte. -/
def midFrame : State := { at_ .device 2#8 1#8 [(0, 0x00#8)] with pending := [.rxstep 0x01#8] }

theorem midFrame_inv : midFrame.Inv := by
  refine ⟨⟨by unfold Parser.InFrame; decide, by decide, by decide⟩, fun l h => by cases h⟩

theorem witness_StepKeepsInvariant : midFrame.Inv ∧ ∃ t, step midFrame = .next t := ⟨midFrame_inv, _, rfl⟩

theorem witness_NoLockUp : midFrame.Inv ∧ (Instr.send (.d2h (.print hi))).wellFormed = true ∧
    (Instr.send (.d2h (.print hi))).inMode 2#8 1#8 = true ∧ outboundOf midFrame.role (.d2h (.print hi)) = true :=
  ⟨midFrame_inv, rfl, rfl, rfl⟩

theorem witness_OnlyFeedAndResetTouchTheParser :
    (Instr.send (.d2h (.print hi))).writesParser = false ∧ ∃ t, exec (.send (.d2h (.print hi))) midFrame = .next t :=
  ⟨rfl, _, rfl⟩

theorem witness_BoundaryFrame : (∃ t, exec (.frame 1#8 [0x07#8]) State.reset = .next t) ∧
    (∀ b, Instr.frame 1#8 [0x07#8] ≠ .rxstep b) ∧ (∀ m, Instr.frame 1#8 [0x07#8] ≠ .send m) ∧
    (∃ t, exec (.encf []) State.reset = .next t) ∧ (Instr.encf []).writesParser = false ∧
    ∃ t, exec .reset midFrame = .next t :=
  ⟨⟨_, rfl⟩, fun _ => nofun, fun _ => nofun, ⟨_, rfl⟩, rfl, _, rfl⟩

theorem witness_EncfResults :
    (List.replicate 254 0xAB#8).length ≤ 254 ∧ 254 < (List.replicate 255 0xAB#8).length := by
  simp only [List.length_replicate]
  decide

theorem witness_EncfOfEmptyPayloadIsLost : State.reset.parser.Idle := ⟨rfl, rfl⟩

theorem witness_DecH2DResults : (0x01#8 : Byte) ≠ 0x00#8 ∧ 1 < (0x02#8 : Byte).toNat ∧ (0x00#8 : Byte).toNat ≤ 1 ∧
    (0x01#8 : Byte).toNat ≤ 1 ∧ ([0x00#8] : Bytes) ≠ [] := by decide

theorem witness_DecD2HResults : (0x05#8 : Byte) ≠ 0x00#8 ∧ ([0x68#8, 0x69#8] : Bytes).length < (3#8 : Byte).toNat ∧
    ((1#8 : Byte).toNat ≤ ([0xFF#8, 0x69#8] : Bytes).length ∧
      validUtf8 (([0xFF#8, 0x69#8] : Bytes).take (1#8 : Byte).toNat) = false) ∧
    (hi.bytes = ([0x68#8, 0x69#8, 0x21#8] : Bytes).take (2#8 : Byte).toNat ∧
      (2#8 : Byte).toNat < ([0x68#8, 0x69#8, 0x21#8] : Bytes).length) ∧
    (hi.bytes = [0x68#8, 0x69#8] ∧ (2#8 : Byte).toNat = ([0x68#8, 0x69#8] : Bytes).length) := by decide

theorem witness_DecUsesTheRolesArm : (State.resetAs .device).role = .device ∧ (State.resetAs .host).role = .host :=
  ⟨rfl, rfl⟩

theorem witness_H2dRowResults : ([0x00#8] : Bytes) ≠ [] ∧ 1 < (0x02#8 : Byte).toNat ∧ 1 < (0xFF#8 : Byte).toNat ∧
    (0x01#8 : Byte) ≠ 0x00#8 := by decide

theorem witness_D2hRowResults : ([] : Bytes).length < (1#8 : Byte).toNat ∧
    ((1#8 : Byte).toNat ≤ ([0x80#8] : Bytes).length ∧
      validUtf8 (([0x80#8] : Bytes).take (1#8 : Byte).toNat) = false) ∧
    (hi.bytes = ([0x68#8, 0x69#8, 0x21#8] : Bytes).take (2#8 : Byte).toNat ∧
      (2#8 : Byte).toNat < ([0x68#8, 0x69#8, 0x21#8] : Bytes).length) ∧
    (hi.bytes = [0x68#8, 0x69#8] ∧ (2#8 : Byte).toNat = ([0x68#8, 0x69#8] : Bytes).length) ∧
    (0x01#8 : Byte) ≠ 0x00#8 := by decide

theorem witness_ValidUtf8IsConcatOfSequences : validUtf8 [0xF4#8, 0x8F#8, 0xBF#8, 0xBF#8] = true ∧
    (0xF4#8 : Byte) ∈ [0xF4#8, 0x8F#8, 0xBF#8, 0xBF#8] := by decide

theorem witness_ErrorKindsPerOperation :
    (∃ t, exec (.send (.d2h (.print t253))) (State.resetAs .device) = .next t ∧ t.result = .send (.failed .oversize)) ∧
    (∃ t, exec (.encf (List.replicate 255 0xAB#8)) State.reset = .next t ∧ t.result = .framed (.err .oversize)) :=
  ⟨⟨{ State.resetAs .device with result := .send (.failed .oversize) }, by
      simp only [exec, execSend, t253_does_not_frame]; rfl, rfl⟩,
    _, rfl, congrArg OpResult.framed (if_pos (by rw [List.length_replicate]; decide))⟩

theorem witness_CodecRoundTrip : decodeH2D [0x00#8, 0x00#8] = .ok (.h2d (.setOutput false)) ∧
    decodeD2H [0x00#8, 0x00#8] = .ok (.d2h (.print ⟨[], rfl, Nat.zero_le _⟩)) ∧
    encodeMessage (.h2d (.setOutput true)) = encodeMessage (.h2d (.setOutput true)) := ⟨rfl, rfl, rfl⟩

theorem witness_WhichMessagesFrame : t252.bytes.length ≤ 252 ∧ 253 ≤ t253.bytes.length := by
  rw [t252_length, t253_length]
  decide

theorem witness_RxstepResult : midFrame.parser.InFrame ∧
    decodeFor .device [0x00#8, 0x01#8] = .ok (.h2d (.setOutput true)) ∧
    decodeFor .device [0x00#8, 0x02#8] = .err .invalidBool ∧
    (∃ t, exec (.feed 0x01#8) midFrame = .next t ∧ t.result = .fed (some [0x00#8, 0x01#8])) ∧
    ∃ t, exec (.feed 0x01#8) State.reset = .next t ∧ t.result = .fed none := by
  refine ⟨by unfold Parser.InFrame; decide, rfl, rfl, ⟨_, rfl, rfl⟩, _, rfl, rfl⟩

theorem witness_FailedDecodeLeavesParserReady :
    ∃ t q rs, exec (.rxstep 0x01#8) (at_ .device 2#8 1#8 [(0, 0x07#8)]) = .next t ∧
      t.result = .rxstep (some [0x07#8, 0x01#8]) (.failed .unknownTag) ∧
      runFeeds Parser.reset [0x02#8, 0x00#8, 0x01#8] = .next (q, rs) ∧
      outboundOf t.role (.h2d (.setOutput true)) = false ∧
      encodeFrame (encodeMessage (.h2d (.setOutput true))) = .ok [0x02#8, 0x00#8, 0x01#8] :=
  ⟨_, _, _, rfl, rfl, rfl, rfl, rfl⟩

theorem witness_RxstepIgnoresEarlierResults :
    midFrame.parser = { midFrame with result := .decoded (.err .unknownTag), rxResults := [.failed .unknownTag] }.parser ∧
    ∃ t, exec (.rxstep 0x01#8) midFrame = .next t := ⟨rfl, _, rfl⟩

theorem witness_RxstepEvents : ∃ t, exec (.rxstep 0x01#8) midFrame = .next t ∧ frameDone t = true ∧ msgValid t = true :=
  ⟨_, rfl, rfl, rfl⟩

theorem witness_SendResults : outboundOf (State.resetAs .device).role (.d2h (.print t252)) = true ∧
    (encodeMessage (.d2h (.print t252))).length ≤ 254 ∧ 254 < (encodeMessage (.d2h (.print t253))).length ∧
    outboundOf (State.resetAs .host).role (.h2d (.setOutput false)) = true := by
  rw [t252_payload_length, t253_payload_length]
  decide

theorem witness_SendRefusesInboundType : (State.resetAs .device).role = .device ∧ (State.resetAs .host).role = .host :=
  ⟨rfl, rfl⟩

theorem witness_RxAndTxCommute : (∃ s1 s2, exec (.rxstep 0x01#8) midFrame = .next s1 ∧
      exec (.send (.d2h (.print hi))) s1 = .next s2) ∧
    ∃ t1 t2, exec (.send (.d2h (.print hi))) midFrame = .next t1 ∧ exec (.rxstep 0x01#8) t1 = .next t2 :=
  ⟨⟨_, _, rfl, rfl⟩, _, _, rfl, rfl⟩

theorem witness_RoundTripWithFraming : Representable (.d2h (.print t252)) ∧ Representable (.h2d (.setOutput true)) ∧
    (State.resetAs .host).parser.Idle ∧ outboundOf (State.resetAs .host).role (.d2h (.print t252)) = false := by
  refine ⟨?_, ?_, ⟨rfl, rfl⟩, rfl⟩
  · unfold Representable
    rw [t252_payload_length]
    decide
  · show 2 ≤ 254; decide

/-- A host with two messages to send, and a device that is given the two frames. -/
def hostSends : State :=
  { State.resetAs .host with
    pending := ([.h2d (.setOutput true), .h2d (.setOutput false)] : List Message).map sendTransfer }

def deviceReceives : State :=
  { State.resetAs .device with
    pending := [0x02#8, 0x00#8, 0x01#8, 0x02#8, 0x00#8, 0x00#8].map Transfer.rxstep }

theorem witness_DeliveryOverIdealLink :
    (∀ m ∈ ([.h2d (.setOutput true), .h2d (.setOutput false)] : List Message),
      outboundOf hostSends.role m = true ∧ Representable m) ∧
    deviceReceives.role ≠ hostSends.role ∧
    hostSends.pending = ([.h2d (.setOutput true), .h2d (.setOutput false)] : List Message).map
      sendTransfer ∧
    SyncStart deviceReceives ∧ IdealLink [[0x02#8, 0x00#8, 0x01#8], [0x02#8, 0x00#8, 0x00#8]] deviceReceives := by
  unfold Representable
  exact ⟨by decide, by decide, rfl, ⟨rfl, rfl⟩, rfl⟩

theorem witness_OneNoiseByteCanLoseEverything : State.reset.role = .device ∧ State.reset.parser.Idle :=
  ⟨rfl, rfl, rfl⟩

theorem witness_StepRunsTheDecodedInstruction : midFrame.pending = .rxstep 0x01#8 :: [] ∧
    (Transfer.rxstep 0x01#8).presentIn midFrame.role = true ∧
    decode midFrame.parser.el midFrame.parser.wc (.rxstep 0x01#8) = .ok (.rxstep 0x01#8) := ⟨rfl, rfl, rfl⟩

theorem witness_QuiescentWithoutOffers : (at_ .host 3#8 2#8 []).pending = [] := rfl

theorem witness_StepStops : (Transfer.sendBool true).presentIn .device = false ∧
    ({ at_ .host 1#8 1#8 [] with pending := [.rxClass 0#8] } : State).pending = .rxClass 0#8 :: [] ∧
    ((at_ .host 1#8 1#8 []).parser.el ≠ 0#8 ∧
      (at_ .host 1#8 1#8 []).parser.el.toNat ≤ (at_ .host 1#8 1#8 []).parser.wc.toNat) ∧ midFrame.parser.InFrame := by
  refine ⟨rfl, rfl, by decide, ?_⟩
  unfold Parser.InFrame
  decide

theorem witness_MessagePorts :
    (∃ t, exec (.rxstep 0x01#8) midFrame = .next t ∧ completed t.result = some [0x00#8, 0x01#8] ∧
      t.result = .rxstep (some [0x00#8, 0x01#8]) (.delivered (.h2d (.setOutput true)))) ∧
    (∃ t, exec (.rxstep 0x69#8) (at_ .host 4#8 3#8 [(0, 0x00#8), (1, 0x02#8), (2, 0x68#8)]) = .next t ∧
      t.result = .rxstep (some [0x00#8, 0x02#8, 0x68#8, 0x69#8]) (.delivered (.d2h (.print hi)))) ∧
    (∃ t, exec (.rxstep 0x02#8) midFrame = .next t ∧
      t.result = .rxstep (some [0x00#8, 0x02#8]) (.failed .invalidBool)) ∧
    (0xFF#8 : Byte).toNat < 256 ∧ ([0x00#8, 0x01#8] : Bytes).length ≤ (0x02#8 : Byte).toNat :=
  ⟨⟨_, rfl, rfl, rfl⟩, ⟨_, rfl, rfl⟩, ⟨_, rfl, rfl⟩, by decide, by decide⟩

/-- The result of the `RXSTEP` that completes the one-byte or longer frame whose earlier bytes `buf` holds. -/
def lastByteResult (r : Role) (el wc : Byte) (buf : Memory) (b : Byte) : Option OpResult :=
  resultIn (exec (.rxstep b) (at_ r el wc buf))

theorem witness_DecodeErrorCodes :
    lastByteResult .device 2#8 1#8 [(0, 0x00#8)] 0x01#8 =
      some (.rxstep (some [0x00#8, 0x01#8]) (.delivered (.h2d (.setOutput true)))) ∧
    lastByteResult .device 1#8 0#8 [] 0x07#8 = some (.rxstep (some [0x07#8]) (.failed .unknownTag)) ∧
    lastByteResult .host 1#8 0#8 [] 0x00#8 = some (.rxstep (some [0x00#8]) (.failed .truncated)) ∧
    lastByteResult .host 3#8 2#8 [(0, 0x00#8), (1, 0x01#8)] 0xFF#8 =
      some (.rxstep (some [0x00#8, 0x01#8, 0xFF#8]) (.failed .invalidUtf8)) ∧
    lastByteResult .device 2#8 1#8 [(0, 0x00#8)] 0x02#8 =
      some (.rxstep (some [0x00#8, 0x02#8]) (.failed .invalidBool)) ∧
    lastByteResult .device 3#8 2#8 [(0, 0x00#8), (1, 0x01#8)] 0x00#8 =
      some (.rxstep (some [0x00#8, 0x01#8, 0x00#8]) (.failed .trailingBytes)) ∧
    lastByteResult .device 0#8 0#8 [] 0x02#8 = some (.rxstep none .nothing) ∧
    ∃ t, exec (.dec []) State.reset = .next t := by
  refine ⟨?_, ?_, ?_, ?_, ?_, ?_, ?_, _, rfl⟩ <;> decide

theorem witness_TransmitPorts :
    (∃ t, exec (.send (.d2h (.print hi))) midFrame = .next t ∧
      t.result = .send (.sent [0x04#8, 0x00#8, 0x02#8, 0x68#8, 0x69#8])) ∧
    (∃ t, exec (.encf []) midFrame = .next t ∧ t.result = .framed (.ok [0x00#8])) ∧
    (∃ t, exec (.send (.d2h (.print t253))) (State.resetAs .device) = .next t ∧ t.result = .send (.failed .oversize)) ∧
    ∃ t, exec (.encf (List.replicate 255 0xAB#8)) State.reset = .next t ∧ t.result = .framed (.err .oversize) :=
  ⟨⟨_, rfl, rfl⟩, ⟨_, rfl, rfl⟩, witness_ErrorKindsPerOperation⟩

theorem test_tx_last : txTransfers [0x02#8, 0x00#8, 0x01#8] = [(0x02#8, false), (0x00#8, false), (0x01#8, true)] := rfl
theorem test_dec_err_not_driven_by_dec : (match exec (.dec [0x07#8]) State.reset with
    | .next t => decErr t
    | .fault _ => some 7#3
    | .refused _ => some 7#3) = none := rfl

end Sys2Proof.Tests
end

/-! PROOFS. The state and its invariant: what reset leaves, what feeding past the declared length does, what no other
instruction touches, and that every step keeps R15. -/

namespace Sys2Proof.Machine

/-! ### The invariant along feeding, resetting and every instruction -/

/-- R41: what an open view `w` asks of the parser, `State.Inv`'s clause as a predicate of the two. -/
def Parser.Shows (p : Parser) (w : Option Byte) : Prop :=
  ∀ l, w = some l → l ≠ 0#8 ∧ p.el = 0#8 ∧ ∀ i, i < l.toNat → (p.buf.at? i).isSome

theorem State.inv_iff {s : State} : s.Inv ↔ s.parser.Inv ∧ s.parser.Shows s.window :=
  ⟨fun ⟨hp, hv⟩ => ⟨hp, hv⟩, fun ⟨hp, hv⟩ => ⟨hp, hv⟩⟩

theorem Parser.shows_closed (p : Parser) : p.Shows none := nofun

/-- A payload is emitted only after its last byte is stored, on top of the bytes already written below the cursor. -/
theorem feedParser_shows {p q : Parser} {b : Byte} {r : Option Bytes} (hp : p.Inv)
    (h : feedParser p b = .next (q, r)) : q.Shows (windowOf r) := by
  cases r with
  | none => exact q.shows_closed
  | some payload =>
    obtain ⟨hel, hwc, ⟨hidle, -⟩, hlen, -, hbuf⟩ := feedParser_completes h
    intro l hl
    obtain rfl : lengthByte payload = l := Option.some.inj hl
    rw [lengthByte_of_length hlen]
    refine ⟨hel, hidle, fun i hi => ?_⟩
    rw [hbuf, Memory.at?_put]
    split
    · rfl
    · exact hp.written i (by omega)

/-- The view after several `FEED`s is the last one's. -/
theorem runFeeds_shows {p q : Parser} {bs : Bytes} {rs : List (Option Bytes)} (hp : p.Inv) (hbs : bs ≠ [])
    (h : runFeeds p bs = .next (q, rs)) : q.Shows (windowOf rs.getLast?.join) := by
  induction bs generalizing p rs with
  | nil => exact absurd rfl hbs
  | cons b bs ih =>
    obtain ⟨p1, r, rs', h1, h2, rfl⟩ := runFeeds_cons_eq_next h
    cases bs with
    | nil =>
      cases h2
      exact feedParser_shows hp h1
    | cons c cs =>
      obtain ⟨_, r', rs'', -, -, rfl⟩ := runFeeds_cons_eq_next h2
      simpa only [List.getLast?_cons_cons] using ih (feedParser_inv hp h1) (List.cons_ne_nil _ _) h2

/-- R190: Idle with the cursor at 0 meets the parser's invariant over any canonical `BUF`. -/
theorem Parser.inv_idle {m : Memory} (hm : m.wf) : Parser.Inv ⟨0#8, 0#8, m⟩ where
  inFrame := ⟨fun _ => rfl, fun h => absurd rfl h⟩
  canonical := hm
  written := fun _ hi => absurd hi (Nat.not_lt_zero _)

/-- R15, R41: an instruction feeds the parser, resets it or leaves it, and each keeps the invariant. -/
theorem exec_inv {i : Instr} {s t : State} (hs : s.Inv) (h : exec i s = .next t) : t.Inv := by
  obtain ⟨hp, hv⟩ := State.inv_iff.1 hs
  rw [State.inv_iff]
  rcases exec_parser_cases h with ⟨bs, rs, hbs, hrun, hw⟩ | ⟨hpar, hw⟩ | ⟨hpar, hw⟩
  · rw [hw]
    exact ⟨runFeeds_inv hp hrun, runFeeds_shows hp hbs hrun⟩
  · rw [hpar, hw]
    refine ⟨Parser.inv_idle hp.canonical, fun l hl => ?_⟩
    obtain ⟨hne, -, hstored⟩ := hv l hl
    exact ⟨hne, rfl, hstored⟩
  · rw [hpar, hw]
    exact ⟨hp, hv⟩

/-- The invariant does not speak of what is offered. -/
theorem State.Inv.with_pending {s : State} (hs : s.Inv) (rest : List Transfer) : State.Inv { s with pending := rest } :=
  ⟨hs.parser, hs.view⟩

/-- Nor of the last result. -/
theorem State.Inv.record {s : State} (hs : s.Inv) (r : OpResult) : (record s r).Inv := ⟨hs.parser, hs.view⟩

/-- Settles O26: a step is quiescent or runs one instruction, and either keeps the invariant. -/
theorem stepKeepsInvariant : Obligations.StepKeepsInvariant := by
  intro s t hs h
  rcases step_cases h with ⟨-, rfl⟩ | ⟨_, rest, _, -, -, -, hexec⟩
  · exact hs.record .none
  · exact exec_inv (hs.with_pending rest) hexec

/-- Settles O25: reset is Idle with nothing listed in `BUF` and a closed view. -/
theorem invariantAfterReset : Obligations.InvariantAfterReset := fun _ =>
  ⟨Parser.inv_idle ⟨List.Pairwise.nil, nofun⟩, nofun⟩

/-- Settles O6: nothing is listed in `BUF` after reset, so every byte reads as the free value. -/
theorem resetValues : Obligations.ResetValues := fun _ => ⟨rfl, rfl, rfl, fun _ => rfl⟩

/-! ### The frame in progress -/

/-- Settles O21: the length byte opens the frame with the cursor at 0, and the payload bytes are stored from there. -/
theorem bufferHoldsFrameInProgress : Obligations.BufferHoldsFrameInProgress := by
  intro p l ds ⟨hidle, _⟩ hlen
  have hne : l ≠ 0#8 := by
    rintro rfl
    exact absurd hlen (Nat.not_lt_zero _)
  have hopen := feedParser_idle l hidle
  obtain ⟨q, hrun, hel, hwc, hslice, hrest⟩ :=
    runFeeds_data ds (p := { p with el := l, wc := 0#8 }) hne (by simpa using hlen)
  simp only [BitVec.toNat_zero, Nat.zero_add] at hwc hslice hrest
  exact ⟨q, none :: List.replicate ds.length none, by rw [runFeeds_cons hopen, hrun]; rfl, hel, hwc, hslice,
    emissions_quiet (ds.length + 1), hrest⟩

/-- Settles O22: agreement on `EL`, `WC` and the bytes below `WC` is kept by every `FEED`, and determines its result. -/
theorem staleBytesAreUnobservable : Obligations.StaleBytesAreUnobservable := by
  intro p q p' s rs hel hwc hbuf hrun
  obtain ⟨q', hrun', hel', hwc', -⟩ := runFeeds_agree ⟨hel, hwc, hbuf⟩ hrun
  exact ⟨q', hrun', hel'.symm, hwc'.symm⟩

/-! ### Instructions that do not feed the parser -/

/-- R16: an instruction that neither feeds nor resets carries any parser through, with the same answer. -/
theorem exec_with_parser {i : Instr} (hi : i.writesParser = false) (s : State) (p : Parser) :
    exec i { s with parser := p } = andThen (exec i s) fun t => .next { t with parser := p } := by
  cases i with
  | rxLen0 | rxLen | rxData | rxLast | frame | feed | reset | rxstep => cases hi
  | h2dSetOutput | d2hPrint | encf | encSetOutput | encPrint | dec | decH2D | decD2H => rfl
  | h2dBadBool x rest | h2dReservedTag x rest | d2hReservedTag x rest =>
    simp only [exec, execH2dBadBool, execH2dReservedTag, execD2hReservedTag]
    split <;> rfl
  | send m =>
    simp only [exec, execSend]
    split
    · cases encodeFrame (encodeMessage m) <;> rfl
    · rfl

/-- Settles O29: the parser is carried through unchanged and unread. -/
theorem onlyFeedAndResetTouchTheParser : Obligations.OnlyFeedAndResetTouchTheParser := by
  intro i s t hi h
  obtain ⟨r, fs, ht, -⟩ := exec_pure_cases hi h
  have hpar : t.parser = s.parser := by rw [ht]
  refine ⟨hpar, fun a => by rw [hpar], fun p => ?_⟩
  rw [exec_with_parser hi s p, h, andThen_next]

/-! ### Past the declared length -/

section Stuck
variable {s : State} (hel : s.parser.el ≠ 0#8) (hwc : s.parser.el.toNat ≤ s.parser.wc.toNat)
include hel hwc

theorem feedState_stuck (b : Byte) : feedState s b = .refused .unreachableState := by
  simp [feedState, feedParser_stuck b hel hwc]

theorem inClass_stuck (b : Byte) (c : RxClass) (k : Answer State) : inClass s b c k = .refused .unreachableState := by
  simp [inClass, rxClass_none b hel hwc]

theorem exec_feed_stuck (b : Byte) : exec (.feed b) s = .refused .unreachableState := by
  simp [exec, execFeed, feedState_stuck hel hwc]

theorem exec_rxstep_stuck (b : Byte) : exec (.rxstep b) s = .refused .unreachableState := by
  simp [exec, execRxstep, feedState_stuck hel hwc]

/-- R50: a frame stops at its length byte. -/
theorem exec_frame_stuck {l : Byte} {payload : Bytes} (hl : payload.length = l.toNat) :
    exec (.frame l payload) s = .refused .unreachableState := by
  simp [exec, execFrame, hl, runFeeds, feedParser_stuck l hel hwc]

end Stuck

/-- Settles O14: no class applies to a byte there, so neither a row nor a `FEED` in any form has a step. -/
theorem noStepPastDeclaredLength : Obligations.NoStepPastDeclaredLength := fun _ b _ hel hwc =>
  ⟨exec_feed_stuck hel hwc b, exec_rxstep_stuck hel hwc b, inClass_stuck hel hwc _ _ _, inClass_stuck hel hwc _ _ _,
    inClass_stuck hel hwc _ _ _, inClass_stuck hel hwc _ _ _, exec_frame_stuck hel hwc⟩

/-! ### Steps -/

/-- Settles O58: the law of a step with something offered. -/
theorem stepRunsTheDecodedInstruction : Obligations.StepRunsTheDecodedInstruction := fun _ _ _ _ => step_offered

end Sys2Proof.Machine

/-! PROOFS. Memory: where a fed byte is stored, how long the payload view shows a payload, that no operation leaves
`BUF`, and that receiving and sending can be exchanged. -/

namespace Sys2Proof.Machine

/-! ### The store of a fed byte -/

/-- R80, R140: an instruction that feeds one byte moves the parser as `FEED` of that byte does. -/
theorem exec_oneByte_feeds {s t : State} {b : Byte} {i : Instr}
    (hi : i ∈ [.feed b, .rxstep b, .rxLen b, .rxData b, .rxLast b]) (h : exec i s = .next t) :
    ∃ r, feedParser s.parser b = .next (t.parser, r) := by
  have of_feed (hf : exec (.feed b) s = .next t) : ∃ r, feedParser s.parser b = .next (t.parser, r) := by
    obtain ⟨q, r, hq, rfl⟩ := exec_feed_cases hf
    exact ⟨r, hq⟩
  simp only [List.mem_cons, List.not_mem_nil, or_false] at hi
  rcases hi with rfl | rfl | rfl | rfl | rfl
  · exact of_feed h
  · obtain ⟨q, r, _, hq, rfl, -⟩ := exec_rxstep_cases h
    exact ⟨r, hq⟩
  · exact of_feed (exec_rxLen_eq_feed (inClass_cases h).1 ▸ h)
  · exact of_feed (exec_rxData_eq_feed (inClass_cases h).1 ▸ h)
  · exact of_feed (exec_rxLast_eq_feed (inClass_cases h).1 ▸ h)

/-- R81 to R84: `FEED` leaves `BUF` alone in Idle, and else writes its byte at the cursor. -/
theorem feedParser_buf {p q : Parser} {b : Byte} {r : Option Bytes} (h : feedParser p b = .next (q, r)) :
    q.buf = if p.el = 0#8 then p.buf else p.buf.put p.wc.toNat b := by
  rcases feedParser_cases h with ⟨hel, rfl, -⟩ | ⟨hel, -, rfl, -⟩ | ⟨hel, -, rfl, -⟩
  · rw [if_pos hel]
  · rw [if_neg hel]
  · rw [if_neg hel]

/-- Settles O23: every form stores as `FEED` does, and a `put` is read back at its own index only. -/
theorem storesOneByteAtCursor : Obligations.StoresOneByteAtCursor := by
  intro s t b i hi h
  obtain ⟨r, hfeed⟩ := exec_oneByte_feeds hi h
  have hbuf := feedParser_buf hfeed
  refine ⟨fun hel a => ?_, fun hel => ?_⟩
  · rw [hbuf, if_pos hel]
  · rw [hbuf, if_neg hel]
    exact ⟨bufByte_put_self _ _ _, fun a ha => bufByte_put_ne b ha⟩

/-! ### The payload view -/

/-- R41: the view is a function of the window and of `BUF`. -/
theorem payloadView_congr {s t : State} (hw : t.window = s.window) (hb : t.parser.buf = s.parser.buf) :
    payloadView t = payloadView s := by
  rw [payloadView, payloadView, hw, hb]

/-- R41: after a `FEED` the view shows what it emitted. -/
theorem payloadView_exec_feed {s t : State} {b : Byte} {r : Option Bytes} (h : exec (.feed b) s = .next t)
    (hr : t.result = .fed r) : payloadView t = r := by
  obtain ⟨q, r', hfeed, rfl⟩ := exec_feed_cases h
  cases hr
  cases r with
  | none => rfl
  | some payload =>
    obtain ⟨-, -, -, hlen, hslice, -⟩ := feedParser_completes hfeed
    show some (bufSlice q.buf (lengthByte payload).toNat) = some payload
    rw [lengthByte_of_length hlen, ← hslice]

/-- R41, R190 (log entries 13 and 20): an instruction that feeds nothing, RESET included, leaves the view. -/
theorem payloadView_exec_unfed {i : Instr} {s t : State} (hi : i.writesParser = false ∨ i = .reset)
    (h : exec i s = .next t) : payloadView t = payloadView s := by
  rcases hi with hi | rfl
  · obtain ⟨_, _, rfl, -⟩ := exec_pure_cases hi h
    exact payloadView_congr rfl rfl
  · cases h
    exact payloadView_congr rfl rfl

/-- R84, R93: a completing `FEED` leaves the parser Idle and its payload in `BUF`. -/
theorem exec_feed_completes {s t : State} {b : Byte} {payload : Bytes} (h : exec (.feed b) s = .next t)
    (hr : t.result = .fed (some payload)) : t.parser.el = 0#8 ∧ bufSlice t.parser.buf payload.length = payload := by
  obtain ⟨q, r, hfeed, rfl⟩ := exec_feed_cases h
  cases hr
  obtain ⟨-, -, ⟨hidle, -⟩, hlen, hslice, -⟩ := feedParser_completes hfeed
  exact ⟨hidle, by rw [hlen]; exact hslice.symm⟩

/-- R81, R82, R41: a `FEED` in Idle closes the view and leaves `BUF`. -/
theorem exec_feed_idle {s : State} (c : Byte) (hel : s.parser.el = 0#8) :
    ∃ u, exec (.feed c) s = .next u ∧ payloadView u = none ∧ u.parser.buf = s.parser.buf :=
  ⟨_, exec_feed (feedParser_idle c hel), rfl, rfl⟩

/-- Settles O24: a completing `FEED` leaves its payload in `BUF` and the parser in Idle, where the next `FEED` stores
nothing. -/
theorem payloadViewUntilNextFeed : Obligations.PayloadViewUntilNextFeed := by
  intro s t b r h hr
  have hview := payloadView_exec_feed h hr
  refine ⟨hview, fun i u hi hu => (payloadView_exec_unfed hi hu).trans hview, ?_⟩
  rintro p c rfl
  obtain ⟨hidle, hbytes⟩ := exec_feed_completes h hr
  obtain ⟨u, hu, hclosed, hbuf⟩ := exec_feed_idle c hidle
  exact ⟨u, hu, hclosed, by rw [hbuf, hbytes]⟩

/-! ### No fault -/

/-- A sequence does not fault where neither of its parts does. -/
theorem andThen_ne_fault {α β : Type} {x : Answer α} {f : α → Answer β} {e : Fault} (hx : x ≠ .fault e)
    (hf : ∀ a, f a ≠ .fault e) : andThen x f ≠ .fault e := by
  intro h
  rcases andThen_eq_fault.1 h with h | ⟨a, -, h⟩
  · exact hx h
  · exact hf a h

theorem feedState_ne_fault (s : State) (b : Byte) (e : Fault) : feedState s b ≠ .fault e :=
  andThen_ne_fault (feedParser_ne_fault _ _ _) fun _ => nofun

theorem exec_feed_ne_fault (s : State) (b : Byte) (e : Fault) : exec (.feed b) s ≠ .fault e :=
  andThen_ne_fault (feedState_ne_fault _ _ _) fun _ => nofun

/-- A received-byte row faults only in its class, where it is `FEED` (R80). -/
theorem inClass_fault_class {s : State} {b : Byte} {c : RxClass} {k : Answer State} {e : Fault}
    (h : inClass s b c k = .fault e) : rxClass s.parser.el s.parser.wc b = some c := by
  unfold inClass at h
  split at h
  · split at h
    · simp_all
    · cases h
  · cases h

/-- R50: a `FRAME` whose length byte is right is a run of `FEED`s, and any other is refused. -/
theorem exec_frame_ne_fault (s : State) (l : Byte) (payload : Bytes) (e : Fault) :
    exec (.frame l payload) s ≠ .fault e := by
  show execFrame l payload s ≠ .fault e
  unfold execFrame
  split
  · exact andThen_ne_fault (runFeeds_ne_fault _ _ _) fun _ => nofun
  · nofun

/-- R140: an `RXSTEP` answers wherever its `FEED` does. -/
theorem exec_rxstep_ne_fault (s : State) (b : Byte) (e : Fault) : exec (.rxstep b) s ≠ .fault e := by
  refine andThen_ne_fault (feedState_ne_fault _ _ _) fun ⟨s1, r⟩ => ?_
  cases r with
  | none => nofun
  | some payload =>
    dsimp only
    split <;> nofun

/-- R16: an instruction that neither feeds nor resets does not index `BUF`. -/
theorem exec_pure_ne_fault {i : Instr} (hi : i.writesParser = false) (s : State) (e : Fault) :
    exec i s ≠ .fault e := by
  intro h
  cases i with
  | rxLen0 | rxLen | rxData | rxLast | frame | feed | reset | rxstep => cases hi
  | h2dSetOutput | d2hPrint | encf | encSetOutput | encPrint | dec | decH2D | decD2H => cases h
  | h2dBadBool | h2dReservedTag | d2hReservedTag =>
    simp only [exec, execH2dBadBool, execH2dReservedTag, execD2hReservedTag] at h
    split at h <;> cases h
  | send m =>
    simp only [exec, execSend] at h
    split at h
    · split at h <;> cases h
    · cases h

/-- R32, R87, R202: no instruction faults, in any state. -/
theorem exec_ne_fault (i : Instr) (s : State) (e : Fault) : exec i s ≠ .fault e := by
  intro h
  cases hi : i.writesParser with
  | false => exact exec_pure_ne_fault hi s e h
  | true =>
    cases i with
    | rxLen0 => exact exec_feed_ne_fault _ _ _ (exec_rxLen0_eq_feed (inClass_fault_class h) ▸ h)
    | rxLen => exact exec_feed_ne_fault _ _ _ (exec_rxLen_eq_feed (inClass_fault_class h) ▸ h)
    | rxData => exact exec_feed_ne_fault _ _ _ (exec_rxData_eq_feed (inClass_fault_class h) ▸ h)
    | rxLast => exact exec_feed_ne_fault _ _ _ (exec_rxLast_eq_feed (inClass_fault_class h) ▸ h)
    | feed => exact exec_feed_ne_fault _ _ _ h
    | frame => exact exec_frame_ne_fault _ _ _ _ h
    | rxstep => exact exec_rxstep_ne_fault _ _ _ h
    | reset => cases h
    | h2dSetOutput | encf | encSetOutput | encPrint | dec | decH2D | decD2H | h2dBadBool | h2dReservedTag
    | d2hReservedTag | d2hPrint | send => cases hi

/-- Settles O27: a step that is not quiescent or refused runs one instruction, and none faults. -/
theorem stepNeverFaults : Obligations.StepNeverFaults := by
  intro s f h
  unfold step at h
  split at h
  · cases h
  · split at h
    · split at h
      · exact exec_ne_fault _ _ _ h
      · cases h
    · cases h

/-! ### Receiving and sending -/

/-- R39, R140: an `RXSTEP` after a `SEND` answers what it answers before it, over the frames the `SEND` wrote. -/
theorem exec_rxstep_after_send {s t : State} {m : Message} (h : exec (.send m) s = .next t) (b : Byte) :
    exec (.rxstep b) t = andThen (exec (.rxstep b) s) fun u => .next { u with txFrames := t.txFrames } := by
  obtain ⟨_, _, rfl, -⟩ := exec_pure_cases rfl h
  simp only [exec, execRxstep, feedState]
  cases feedParser s.parser b with
  | fault e => rfl
  | refused e => rfl
  | next qr =>
    obtain ⟨q, _ | payload⟩ := qr
    · rfl
    · simp only [andThen_next]
      cases decodeFor s.role payload <;> rfl

/-- R39, R142: a `SEND` after an `RXSTEP` answers what it answers before it, over what the `RXSTEP` left. -/
theorem exec_send_after_rxstep {s t : State} {b : Byte} (h : exec (.rxstep b) s = .next t) (m : Message) :
    exec (.send m) t =
      andThen (exec (.send m) s) fun u => .next { t with result := u.result, txFrames := u.txFrames } := by
  obtain ⟨_, _, _, -, rfl, -⟩ := exec_rxstep_cases h
  cases hm : outboundOf s.role m with
  | false => simp [exec, execSend, hm]
  | true => cases hf : encodeFrame (encodeMessage m) <;> simp [exec, execSend, hm, hf]

/-- Settles O52: each of the two answers alike before and after the other, and keeps what the other wrote. -/
theorem rxAndTxCommute : Obligations.RxAndTxCommute := by
  intro s b m
  constructor
  · intro s1 s2 hrx htx
    rw [exec_send_after_rxstep hrx] at htx
    obtain ⟨t1, htx', heq⟩ := andThen_eq_next.1 htx
    cases heq
    exact ⟨t1, { s1 with txFrames := t1.txFrames }, htx', by rw [exec_rxstep_after_send htx', hrx, andThen_next],
      rfl, rfl, rfl, rfl, rfl⟩
  · intro t1 t2 htx hrx
    rw [exec_rxstep_after_send htx] at hrx
    obtain ⟨s1, hrx', heq⟩ := andThen_eq_next.1 hrx
    cases heq
    exact ⟨s1, { s1 with result := t1.result, txFrames := t1.txFrames }, hrx',
      by rw [exec_send_after_rxstep hrx', htx, andThen_next], rfl, rfl, rfl, rfl, rfl⟩

end Sys2Proof.Machine

/-! PROOFS. The encoding: the received-byte classes (R53), the payload rows (R65), that decoding and encoding are inverse
to each other, and what the rows answer in and outside their own pattern. -/

namespace Sys2Proof

open Machine

/-! ### The received-byte classes -/

/-- R53: the table's condition of each class. -/
def RxClass.Condition (el wc b : Byte) : RxClass → Prop
  | .len0 => el = 0#8 ∧ b = 0#8
  | .len => el = 0#8 ∧ b ≠ 0#8
  | .data => el ≠ 0#8 ∧ wc.toNat < el.toNat - 1
  | .last => el ≠ 0#8 ∧ wc.toNat = el.toNat - 1

/-- R15, R53: where the cursor stands in the declared length. -/
theorem rxSituation (el wc : Byte) :
    el = 0#8 ∨ (el ≠ 0#8 ∧ wc.toNat < el.toNat - 1) ∨ (el ≠ 0#8 ∧ wc.toNat = el.toNat - 1) ∨
      (el ≠ 0#8 ∧ el.toNat ≤ wc.toNat) := Parser.situation ⟨el, wc, []⟩

/-- R53: a class is selected exactly under its condition. -/
theorem rxClass_eq_some {el wc b : Byte} {c : RxClass} : rxClass el wc b = some c ↔ c.Condition el wc b := by
  rcases rxSituation el wc with hel | ⟨hel, hwc⟩ | ⟨hel, hwc⟩ | ⟨hel, hwc⟩
  · rw [rxClass_idle hel]
    by_cases hb : b = 0#8 <;> cases c <;> simp [RxClass.Condition, hel, hb]
  · rw [rxClass_data b hel hwc]
    cases c <;> simp [RxClass.Condition, hel, hwc, Nat.ne_of_lt hwc]
  · rw [rxClass_last b hel hwc]
    cases c <;> simp [RxClass.Condition, hel, hwc]
  · rw [rxClass_none b hel hwc]
    have hpos := toNat_pos hel
    have hlast : wc.toNat ≠ el.toNat - 1 := by omega
    have hdata : ¬ wc.toNat < el.toNat - 1 := by omega
    cases c <;> simp only [RxClass.Condition, hel, hlast, hdata, reduceCtorEq, and_false, false_and]

/-- R15, R53: inside the frame, or between two, some class applies. -/
theorem rxClass_ne_none {el wc : Byte} (b : Byte) (h : el = 0#8 ∨ wc.toNat < el.toNat) : rxClass el wc b ≠ none := by
  rcases rxSituation el wc with hel | ⟨hel, hwc⟩ | ⟨hel, hwc⟩ | ⟨hel, hwc⟩
  · simp [rxClass_idle hel]
  · simp [rxClass_data b hel hwc]
  · simp [rxClass_last b hel hwc]
  · exact absurd hwc (Nat.not_le.2 (h.resolve_left hel))

/-- Settles O5: each class is selected exactly under its condition, and (I1), (I2) exclude the one state without a class. -/
theorem receivedByteClasses : Obligations.ReceivedByteClasses := fun el _ b =>
  ⟨rxClass_eq_some, rxClass_eq_some, rxClass_eq_some, rxClass_eq_some, fun _ hframe =>
    rxClass_ne_none b ((Classical.em (el = 0#8)).imp_right hframe.2)⟩

/-- R53: the row of a class. -/
def RxClass.row (b : Byte) : RxClass → Instr
  | .len0 => .rxLen0
  | .len => .rxLen b
  | .data => .rxData b
  | .last => .rxLast b

theorem decodeRx_of_class {el wc b : Byte} {c : RxClass} (h : rxClass el wc b = some c) :
    decodeRx el wc b = .ok (c.row b) := by
  unfold decodeRx
  rw [h]
  cases c <;> rfl

/-- R53: a received byte decodes exactly where a class applies, and then to its row. -/
theorem decodeRx_eq_ok {el wc b : Byte} {i : Instr} :
    decodeRx el wc b = .ok i ↔ ∃ c, rxClass el wc b = some c ∧ c.row b = i := by
  cases h : rxClass el wc b with
  | none => simp [decodeRx, h]
  | some c => simp [decodeRx_of_class h]

/-- R65: an instruction of the table that applies in a parser state, and the transfer that offers it. -/
def Instr.OfferedBy (el wc : Byte) (x : Transfer) (i : Instr) : Prop :=
  i.wellFormed = true ∧ i.inMode el wc = true ∧ encode i = some x

/-- R53: the row of the class selected is offered by the byte itself. -/
theorem RxClass.row_offeredBy {el wc b : Byte} {c : RxClass} (h : rxClass el wc b = some c) :
    (c.row b).OfferedBy el wc (.rxClass b) := by
  have hcond := rxClass_eq_some.1 h
  cases c with
  | len0 =>
    obtain ⟨-, rfl⟩ := hcond
    exact ⟨rfl, beq_iff_eq.2 h, rfl⟩
  | len => exact ⟨bne_iff_ne.2 hcond.2, beq_iff_eq.2 h, rfl⟩
  | data => exact ⟨rfl, beq_iff_eq.2 h, rfl⟩
  | last => exact ⟨rfl, beq_iff_eq.2 h, rfl⟩

/-! ### The payload rows -/

/-- R120: a bad bool is neither byte of a bool. -/
theorem decodeH2DRow_badBool {x : Byte} (rest : Bytes) (h : 1 < x.toNat) :
    decodeH2DRow Config.tag (x :: rest) = .h2dBadBool x rest := by
  have h0 : x ≠ 0x00#8 := by rintro rfl; exact absurd h (by decide)
  have h1 : x ≠ 0x01#8 := by rintro rfl; exact absurd h (by decide)
  simp [decodeH2DRow, h0, h1]

theorem decodeH2DRow_setOutput (v : Bool) (rest : Bytes) :
    decodeH2DRow Config.tag (boolByte v :: rest) = .h2dSetOutput (some v) rest := by
  cases v <;> rfl

theorem decodeH2DRow_reservedTag {t : Byte} (fields : Bytes) (h : t ≠ Config.tag) :
    decodeH2DRow t fields = .h2dReservedTag t fields := if_neg h

theorem decodeD2HRow_reservedTag {t : Byte} (fields : Bytes) (h : t ≠ Config.tag) :
    decodeD2HRow t fields = .d2hReservedTag t fields := if_neg h

/-- R58, R65 (3): a Host-to-Device payload is the tag alone, the tag and a bool, the tag and a bad bool, or has a reserved
tag. -/
theorem h2dPayload_cases (t : Byte) (fields : Bytes) :
    (t = Config.tag ∧ fields = []) ∨ (∃ v rest, t = Config.tag ∧ fields = boolByte v :: rest) ∨
      (∃ x rest, t = Config.tag ∧ fields = x :: rest ∧ 1 < x.toNat) ∨ t ≠ Config.tag := by
  by_cases ht : t = Config.tag
  · cases fields with
    | nil => exact .inl ⟨ht, rfl⟩
    | cons x rest =>
      by_cases hx : 1 < x.toNat
      · exact .inr (.inr (.inl ⟨x, rest, ht, rfl, hx⟩))
      · exact .inr (.inl ⟨x == 0x01#8, rest, ht, by rw [boolByte_of_le hx]⟩)
  · exact .inr (.inr (.inr ht))

/-- R59, R65 (3): a Device-to-Host payload is the tag alone, the tag and a length byte, or has a reserved tag. -/
theorem d2hPayload_cases (t : Byte) (fields : Bytes) :
    (t = Config.tag ∧ fields = []) ∨ (∃ n rest, t = Config.tag ∧ fields = n :: rest) ∨ t ≠ Config.tag := by
  by_cases ht : t = Config.tag
  · cases fields with
    | nil => exact .inl ⟨ht, rfl⟩
    | cons n rest => exact .inr (.inl ⟨n, rest, ht, rfl⟩)
  · exact .inr (.inr ht)

/-- R65 (3): the row of a Host-to-Device payload is offered by that payload, in any parser state. -/
theorem decodeH2DRow_offeredBy (el wc t : Byte) (fields : Bytes) :
    (decodeH2DRow t fields).OfferedBy el wc (.payloadH2D t fields) := by
  rcases h2dPayload_cases t fields with ⟨rfl, rfl⟩ | ⟨v, rest, rfl, rfl⟩ | ⟨x, rest, rfl, rfl, hx⟩ | ht
  · exact ⟨rfl, rfl, rfl⟩
  · rw [decodeH2DRow_setOutput]
    exact ⟨rfl, rfl, rfl⟩
  · rw [decodeH2DRow_badBool rest hx]
    exact ⟨decide_eq_true hx, rfl, rfl⟩
  · rw [decodeH2DRow_reservedTag fields ht]
    exact ⟨bne_iff_ne.2 ht, rfl, rfl⟩

/-- R65 (3): the row of a Device-to-Host payload is offered by that payload, in any parser state. -/
theorem decodeD2HRow_offeredBy (el wc t : Byte) (fields : Bytes) :
    (decodeD2HRow t fields).OfferedBy el wc (.payloadD2H t fields) := by
  rcases d2hPayload_cases t fields with ⟨rfl, rfl⟩ | ⟨n, rest, rfl, rfl⟩ | ht
  · exact ⟨rfl, rfl, rfl⟩
  · exact ⟨rfl, rfl, rfl⟩
  · rw [decodeD2HRow_reservedTag fields ht]
    exact ⟨bne_iff_ne.2 ht, rfl, rfl⟩

/-! ### Decoding and encoding -/

/-- R50: a frame is offered by its payload, when its length byte is the payload's length. -/
theorem encode_frame {l : Byte} {payload : Bytes} (h : payload.length = l.toNat) :
    ∃ hp, encode (.frame l payload) = some (.wireFrame ⟨payload, hp⟩) := ⟨_, dif_pos h⟩

/-- R145: a payload for `ENCF` is offered when `enc_len` can state its length. -/
theorem encode_encf {p : Bytes} (h : p.length ≤ Config.encLenMax) : encode (.encf p) = some (.encf ⟨p, h⟩) := dif_pos h

/-- Settles O1: each row's transfer is laid out so that the row is the one selected: by its class, its length byte, its
tag and bool, or its port. -/
theorem decodeOfEncode : Obligations.DecodeOfEncode := by
  intro i el wc hwf hmode
  cases i with
  | rxLen0 | rxLen | rxData | rxLast => exact ⟨_, rfl, decodeRx_of_class (beq_iff_eq.1 hmode)⟩
  | frame l payload =>
    have hl : payload.length = l.toNat := beq_iff_eq.1 hwf
    obtain ⟨_, henc⟩ := encode_frame hl
    exact ⟨_, henc, by simp [decode, lengthByte_of_length hl]⟩
  | h2dSetOutput v rest =>
    cases v with
    | none =>
      obtain rfl : rest = [] := List.isEmpty_iff.1 hwf
      exact ⟨_, rfl, rfl⟩
    | some v => exact ⟨_, rfl, congrArg Except.ok (decodeH2DRow_setOutput v rest)⟩
  | h2dBadBool x rest => exact ⟨_, rfl, congrArg Except.ok (decodeH2DRow_badBool rest (of_decide_eq_true hwf))⟩
  | h2dReservedTag t rest => exact ⟨_, rfl, congrArg Except.ok (decodeH2DRow_reservedTag rest (bne_iff_ne.1 hwf))⟩
  | d2hPrint n rest =>
    cases n with
    | none =>
      obtain rfl : rest = [] := List.isEmpty_iff.1 hwf
      exact ⟨_, rfl, rfl⟩
    | some n => exact ⟨_, rfl, rfl⟩
  | d2hReservedTag t rest => exact ⟨_, rfl, congrArg Except.ok (decodeD2HRow_reservedTag rest (bne_iff_ne.1 hwf))⟩
  | encf p => exact ⟨_, encode_encf (of_decide_eq_true hwf), rfl⟩
  | send m => rcases m with ⟨⟨v⟩⟩ | ⟨⟨t⟩⟩ <;> exact ⟨_, rfl, rfl⟩
  | feed | reset | encSetOutput | encPrint | dec | decH2D | decD2H | rxstep => exact ⟨_, rfl, rfl⟩

/-- Settles O2: by the kind of transfer; what a class, a frame or a payload decodes to carries the whole of it. -/
theorem encodeOfDecode : Obligations.EncodeOfDecode := by
  intro el wc x i h
  cases x with
  | rxClass b =>
    obtain ⟨c, hc, rfl⟩ := decodeRx_eq_ok.1 h
    exact RxClass.row_offeredBy hc
  | wireFrame p =>
    cases h
    have hl : p.bytes.length = (lengthByte p.bytes).toNat := (lengthByte_toNat (Nat.lt_succ_of_le p.short)).symm
    obtain ⟨_, henc⟩ := encode_frame hl
    exact ⟨beq_iff_eq.2 hl, rfl, henc⟩
  | payloadH2D t fields =>
    cases h
    exact decodeH2DRow_offeredBy el wc t fields
  | payloadD2H t fields =>
    cases h
    exact decodeD2HRow_offeredBy el wc t fields
  | encf p =>
    cases h
    exact ⟨decide_eq_true p.fits, rfl, encode_encf p.fits⟩
  | feed | rst | encSetOutput | encPrint | dec | decH2D | decD2H | rxstep | sendBool | sendText =>
    cases h
    exact ⟨rfl, rfl, rfl⟩

/-- Settles O3: a frame is the one offer given by its bytes alone; the other words compute. -/
theorem specWordsDecode : Obligations.SpecWordsDecode := by
  refine ⟨rfl, rfl, rfl, rfl, fun p hp => ?_, rfl, rfl, rfl, rfl, rfl, rfl, rfl⟩
  show Except.ok (Instr.frame (lengthByte p.bytes) p.bytes) = _
  rw [hp]
  rfl

end Sys2Proof

namespace Sys2Proof.Machine

/-! ### Rows in and outside their pattern -/

/-- The model's table words come in at ports every Device has. -/
theorem tableTransfer_presentIn_device (nbits w : Nat) : (tableTransfer nbits w).presentIn .device = true := by
  unfold tableTransfer
  split <;> rfl

/-- A table word is read as its transfer is in Idle. -/
theorem decode_of_decodeTableWord {nbits w : Nat} {i : Instr} (h : decodeTableWord nbits w = some i) :
    decode 0#8 0#8 (tableTransfer nbits w) = .ok i := by
  unfold decodeTableWord at h
  cases hd : decode 0#8 0#8 (tableTransfer nbits w) with
  | error => rw [hd] at h; cases h
  | ok => rw [hd] at h; cases h; rfl

/-- Settles O4: after reset the word's transfer is the only one offered, at a port the Device has. -/
theorem tableWordRunsFirst : Obligations.TableWordRunsFirst := fun nbits w _ h =>
  step_offered (withFetchWord_pending State.reset nbits w) (tableTransfer_presentIn_device nbits w)
    (decode_of_decodeTableWord h)

/-- R114: a Host-to-Device payload's row does what `DEC_H2D` does. -/
theorem exec_decodeH2DRow (t : Byte) (fields : Bytes) (s : State) :
    exec (decodeH2DRow t fields) s = exec (.decH2D (t :: fields)) s := by
  show _ = Host.Outcome.next (record s (.decoded (decodeH2D (t :: fields))))
  rw [decodeH2D_cons]
  rcases h2dPayload_cases t fields with ⟨rfl, rfl⟩ | ⟨v, rest, rfl, rfl⟩ | ⟨x, rest, rfl, rfl, hx⟩ | ht
  · rfl
  · rw [decodeH2DRow_setOutput, if_pos rfl]
    rfl
  · rw [decodeH2DRow_badBool rest hx, if_pos rfl, readSetOutput_bad rest hx]
    exact if_pos hx
  · rw [decodeH2DRow_reservedTag fields ht, if_neg ht]
    exact if_neg ht

/-- R114: a Device-to-Host payload's row does what `DEC_D2H` does. -/
theorem exec_decodeD2HRow (t : Byte) (fields : Bytes) (s : State) :
    exec (decodeD2HRow t fields) s = exec (.decD2H (t :: fields)) s := by
  show _ = Host.Outcome.next (record s (.decoded (decodeD2H (t :: fields))))
  rw [decodeD2H_cons]
  rcases d2hPayload_cases t fields with ⟨rfl, rfl⟩ | ⟨n, rest, rfl, rfl⟩ | ht
  · rfl
  · rfl
  · rw [decodeD2HRow_reservedTag fields ht, if_neg ht]
    exact if_neg ht

/-- Settles O38: every tagged payload is one of its direction's rows, and the row does what `DEC` does. -/
theorem payloadRowsAgreeWithDec : Obligations.PayloadRowsAgreeWithDec := fun s _ _ t fields =>
  ⟨⟨_, rfl, exec_decodeH2DRow t fields s⟩, ⟨_, rfl, exec_decodeD2HRow t fields s⟩, rfl, rfl⟩

/-- R53: a received-byte row in a state that some other class applies to. -/
theorem inClass_notThisRow {s : State} {b : Byte} {c : RxClass}
    (hsome : s.parser.el = 0#8 ∨ s.parser.wc.toNat < s.parser.el.toNat)
    (hc : ¬ c.Condition s.parser.el s.parser.wc b) (k : Answer State) : inClass s b c k = .refused .notThisRow := by
  obtain ⟨c', h⟩ := Option.ne_none_iff_exists'.1 (rxClass_ne_none b hsome)
  have hne : c' ≠ c := by
    rintro rfl
    exact hc (rxClass_eq_some.1 h)
  simp [inClass, h, hne]

/-- Settles O13: the received-byte rows by their classes' conditions, the others by the check each makes. -/
theorem rowsStopOutsideTheirCondition : Obligations.RowsStopOutsideTheirCondition := by
  intro s b rest
  refine ⟨fun hel hwc => ⟨?_, ?_⟩, fun hel => ⟨?_, ?_, ?_⟩, fun hel hwc => ?_, fun hel hwc => ?_,
    fun hlen => if_neg hlen, fun hb => if_neg (Nat.not_lt.2 hb), rfl, rfl⟩
  · exact inClass_notThisRow (c := .len0) (.inr hwc) (fun ⟨hidle, _⟩ => hel hidle) _
  · exact inClass_notThisRow (c := .len) (.inr hwc) (fun ⟨hidle, _⟩ => hel hidle) _
  · exact inClass_notThisRow (c := .len) (.inl hel) (fun ⟨_, hne⟩ => hne rfl) _
  · exact inClass_notThisRow (c := .data) (.inl hel) (fun ⟨hne, _⟩ => hne hel) _
  · exact inClass_notThisRow (c := .last) (.inl hel) (fun ⟨hne, _⟩ => hne hel) _
  · have := toNat_pos hel
    exact inClass_notThisRow (c := .data) (.inr (by omega)) (fun ⟨_, hlt⟩ => Nat.ne_of_lt hlt hwc) _
  · exact inClass_notThisRow (c := .last) (.inr (by omega)) (fun ⟨_, heq⟩ => Nat.ne_of_lt hwc heq) _

/-! ### FRAME -/

/-- R94: one result for each byte fed. -/
theorem runFeeds_length {p q : Parser} {bs : Bytes} {rs : List (Option Bytes)} (h : runFeeds p bs = .next (q, rs)) :
    rs.length = bs.length := by
  induction bs generalizing p rs with
  | nil => cases h; rfl
  | cons b bs ih =>
    obtain ⟨_, _, _, -, htail, rfl⟩ := runFeeds_cons_eq_next h
    simp [ih htail]

/-- R50, R102: one frame from Idle, the empty one included, which emits nothing. -/
theorem runFeeds_wireFrame {p : Parser} (hidle : p.el = 0#8) {l : Byte} {payload : Bytes} (hl : payload.length = l.toNat) :
    ∃ q rs, runFeeds p (l :: payload) = .next (q, rs) ∧ q.Idle ∧ emissions rs = (if l = 0#8 then [] else [payload]) ∧
      bufSlice q.buf l.toNat = payload ∧ ∀ a, l.toNat ≤ a → bufByte q.buf a = bufByte p.buf a := by
  by_cases h0 : l = 0#8
  · subst h0
    obtain rfl : payload = [] := List.eq_nil_of_length_eq_zero hl
    have hrun : runFeeds p [0#8] = .next ({ p with el := 0#8, wc := 0#8 }, [none]) :=
      runFeeds_cons (feedParser_idle 0#8 hidle) []
    exact ⟨_, _, hrun, ⟨rfl, rfl⟩, rfl, rfl, fun _ _ => rfl⟩
  · have hpos := toNat_pos h0
    have hlt := l.isLt
    obtain ⟨q, hrun, hq, hslice, hrest⟩ := runFeeds_frame hidle (payload := payload) (by omega) (by omega)
    rw [lengthByte_of_length hl] at hrun
    rw [hl] at hslice hrest
    exact ⟨q, _, hrun, hq, by rw [emissions_frame, if_neg h0], hslice, hrest⟩

/-- Settles O17: the row's feeds answer in every reachable state, one result a byte, and from Idle they are one frame's. -/
theorem frameRowResult : Obligations.FrameRowResult := by
  intro s l payload hl hframe
  obtain ⟨q, rs, hrun⟩ := runFeeds_total hframe (l :: payload)
  refine ⟨_, rs, exec_frame hl hrun, rfl, ?_, ⟨rfl, rfl, rfl, rfl⟩, fun hidle => ?_⟩
  · rw [runFeeds_length hrun, List.length_cons, hl]
  · obtain ⟨_, _, hrun', hspec⟩ := runFeeds_wireFrame hidle hl
    cases hrun.symm.trans hrun'
    exact hspec

/-! ### Which messages frame -/

/-- R66: a `SetOutput` always frames. -/
theorem representable_setOutput (v : Bool) : Representable (.h2d (.setOutput v)) := by
  unfold Representable Config.txMaxPayload
  rw [encodeMessage_setOutput_length]
  omega

/-- R66: a text frames up to 252 bytes. -/
theorem representable_print {t : Text} : Representable (.d2h (.print t)) ↔ t.bytes.length ≤ 252 := by
  unfold Representable Config.txMaxPayload
  rw [encodeMessage_print_length]
  omega

/-- Settles O44: the payload lengths against the encoder's limit of 254 bytes. -/
theorem whichMessagesFrame : Obligations.WhichMessagesFrame := by
  refine ⟨fun v => ⟨encodeMessage_setOutput_length v, representable_setOutput v⟩, fun t =>
    ⟨?_, representable_print, fun hlong => ?_⟩, encodeMessage_pos⟩
  · rw [encodeMessage_print_length, Nat.add_comm]
  · refine encodeFrame_oversize (Nat.not_le.1 fun hr => ?_)
    have := representable_print.1 hr
    omega

end Sys2Proof.Machine

/-! PROOFS. The frame parser: what each received-byte row answers and FEED's dispatch to them (R80 to R84), what runs of
FEEDs over whole frames emit, however the bytes are cut (R91, R94, R95), FRAME as its FEEDs, and the results of a run of
RXSTEPs, with the stream that loses every frame (R89). -/

namespace Sys2Proof.Machine

/-! ### One FEED -/

/-- R84: the payload is read after the store. -/
theorem feedParser_payload_getElem? {p q : Parser} {b : Byte} {payload : Bytes}
    (h : feedParser p b = .next (q, some payload)) {i : Nat} (hi : i < p.el.toNat) :
    payload[i]? = some (bufByte (p.buf.put p.wc.toNat b) i) := by
  obtain ⟨-, -, -, -, hslice, hbuf⟩ := feedParser_completes h
  rw [hslice, hbuf, bufSlice_getElem? _ hi]

/-- R93: an emitted payload ends with the byte just fed. -/
theorem feedParser_payload_last {p q : Parser} {b : Byte} {payload : Bytes}
    (h : feedParser p b = .next (q, some payload)) : payload[p.el.toNat - 1]? = some b := by
  obtain ⟨hel, hwc, -⟩ := feedParser_completes h
  have hpos := toNat_pos hel
  rw [feedParser_payload_getElem? h (by omega), ← hwc, bufByte_put_self]

/-- R84: before its last byte, an emitted payload is what `BUF` held. -/
theorem feedParser_payload_init {p q : Parser} {b : Byte} {payload : Bytes}
    (h : feedParser p b = .next (q, some payload)) {i : Nat} (hi : i < p.el.toNat - 1) :
    payload[i]? = some (bufByte p.buf i) := by
  obtain ⟨-, hwc, -⟩ := feedParser_completes h
  rw [feedParser_payload_getElem? h (by omega), bufByte_put_ne b (by omega)]

/-- R93: an emitted payload has as many bytes as a length byte other than 0 can state. -/
theorem feedParser_payload_length {p q : Parser} {b : Byte} {payload : Bytes}
    (h : feedParser p b = .next (q, some payload)) : 1 ≤ payload.length ∧ payload.length ≤ 255 := by
  obtain ⟨hel, -, -, hlen, -⟩ := feedParser_completes h
  have hpos := toNat_pos hel
  have hlt := p.el.isLt
  omega

/-- R37: a `FEED` leaves every byte of `BUF` but the one at the cursor. -/
theorem feedParser_bufByte_ne {p q : Parser} {b : Byte} {r : Option Bytes} (h : feedParser p b = .next (q, r)) {a : Nat}
    (ha : a ≠ p.wc.toNat) : bufByte q.buf a = bufByte p.buf a := by
  rw [feedParser_buf h]
  split
  · rfl
  · exact bufByte_put_ne b ha

/-- Settles O15: a completing `FEED` reads the whole frame out of `BUF` after storing its last byte. -/
theorem emittedPayload : Obligations.EmittedPayload := by
  intro s t b payload h hr
  obtain ⟨q, r, hfeed, rfl⟩ := exec_feed_cases h
  cases hr
  obtain ⟨-, -, hidle, hlen, hslice, -⟩ := feedParser_completes hfeed
  obtain ⟨hpos, hmax⟩ := feedParser_payload_length hfeed
  refine ⟨hpos, hmax, hlen, ?_, ?_, hidle⟩
  · rw [List.getLast?_eq_getElem?, hlen]
    exact feedParser_payload_last hfeed
  · rw [hlen]
    exact hslice

/-! ### The received-byte rows -/

section Rows
variable {s : State} (b : Byte)

theorem exec_feed_eq_rxLen0 (hel : s.parser.el = 0#8) : exec (.feed 0#8) s = exec .rxLen0 s :=
  (exec_rxLen0_eq_feed ((rxClass_eq_some (c := .len0)).2 (And.intro hel rfl))).symm

theorem exec_feed_eq_rxLen (hel : s.parser.el = 0#8) (hb : b ≠ 0#8) : exec (.feed b) s = exec (.rxLen b) s :=
  (exec_rxLen_eq_feed ((rxClass_eq_some (c := .len)).2 (And.intro hel hb))).symm

theorem exec_feed_eq_rxData (hel : s.parser.el ≠ 0#8) (hwc : s.parser.wc.toNat < s.parser.el.toNat - 1) :
    exec (.feed b) s = exec (.rxData b) s :=
  (exec_rxData_eq_feed (rxClass_data b hel hwc)).symm

theorem exec_feed_eq_rxLast (hel : s.parser.el ≠ 0#8) (hwc : s.parser.wc.toNat = s.parser.el.toNat - 1) :
    exec (.feed b) s = exec (.rxLast b) s :=
  (exec_rxLast_eq_feed (rxClass_last b hel hwc)).symm

end Rows

/-- Settles O12: each row is `FEED` under its class's condition, and `FEED` answers wherever (I1) and (I2) hold. -/
theorem feedDispatchesToItsClass : Obligations.FeedDispatchesToItsClass := by
  intro s b
  refine ⟨?_, exec_feed_eq_rxLen b, exec_feed_eq_rxData b, exec_feed_eq_rxLast b, fun hframe => ?_⟩
  · rintro hel rfl
    exact exec_feed_eq_rxLen0 hel
  · obtain ⟨q, r, hfeed⟩ := feedParser_total hframe b
    refine ⟨_, r, exec_feed hfeed, rfl, ⟨rfl, rfl, rfl, rfl⟩, ?_, fun a ha => feedParser_bufByte_ne hfeed ha⟩
    rintro payload rfl
    exact feedParser_payload_length hfeed

/-- Settles O8: the zero byte becomes `EL`, which is Idle again. -/
theorem rxLen0Result : Obligations.RxLen0Result := fun _ hel =>
  ⟨_, (exec_feed_eq_rxLen0 hel).symm.trans (exec_feed (feedParser_idle 0#8 hel)), rfl, rfl, rfl, rfl, rfl, rfl, rfl, rfl⟩

/-- Settles O9: the byte becomes `EL`, whatever its value. -/
theorem rxLenResult : Obligations.RxLenResult := fun _ b hel hb =>
  ⟨_, (exec_feed_eq_rxLen b hel hb).symm.trans (exec_feed (feedParser_idle b hel)), rfl, rfl, rfl, rfl, rfl, rfl, rfl,
    rfl⟩

/-- Settles O10: a `put` at the old cursor, whose increment does not wrap below the declared length. -/
theorem rxDataResult : Obligations.RxDataResult := by
  intro s b hel hwc
  have hrow := (exec_feed_eq_rxData b hel hwc).symm.trans (exec_feed (feedParser_data b hel hwc))
  exact ⟨_, hrow, rfl, toNat_wc_succ hwc, bufByte_put_self _ _ _, fun _ ha => bufByte_put_ne b ha, rfl,
    rfl, rfl, rfl, rfl⟩

/-- Settles O11: the slice is read after the `put` at the last index, with the old `EL`. -/
theorem rxLastResult : Obligations.RxLastResult := by
  intro s b hel hwc
  have hfeed := feedParser_last b hel hwc
  have hrow := (exec_feed_eq_rxLast b hel hwc).symm.trans (exec_feed hfeed)
  exact ⟨_, _, hrow, rfl, bufSlice_length _ _, fun _ hi => feedParser_payload_init hfeed hi,
    feedParser_payload_last hfeed, rfl, rfl, bufByte_put_self _ _ _, fun _ ha => bufByte_put_ne b ha,
    rfl, rfl, rfl, rfl⟩

/-! ### Runs over frames -/

/-- R94: `run` composes. -/
theorem runFeeds_append_next {p q u : Parser} {s t : Bytes} {rs qs : List (Option Bytes)}
    (hs : runFeeds p s = .next (q, rs)) (ht : runFeeds q t = .next (u, qs)) :
    runFeeds p (s ++ t) = .next (u, rs ++ qs) := by
  simp [runFeeds_append, hs, ht]

/-- R81, R85: a zero byte in Idle leaves the parser as it is and emits nothing. -/
theorem runFeeds_zero {p : Parser} (hp : p.Idle) : runFeeds p [0x00#8] = .next (p, [none]) := by
  obtain ⟨el, wc, buf⟩ := p
  obtain ⟨rfl, rfl⟩ : el = 0#8 ∧ wc = 0#8 := hp
  exact runFeeds_cons (feedParser_idle 0#8 rfl) []

/-- Settles O16: composition, one frame and the zero byte are the laws of a run; `parse` is the run from reset. -/
theorem runOfFrames : Obligations.RunOfFrames := by
  refine ⟨fun _ _ _ _ _ _ _ => runFeeds_append_next, fun p payload hp hpos hmax => ?_,
    fun p hp => ⟨_, runFeeds_zero hp, rfl⟩, fun _ _ _ => parse_of_run⟩
  obtain ⟨q, hrun, hq, -⟩ := runFeeds_frame hp.1 hpos hmax
  exact ⟨q, _, hrun, hq, emissions_frame _ _⟩

/-- R50: the bytes of a payload's frame on the wire. -/
def frameBytes (payload : Bytes) : Bytes := lengthByte payload :: payload

/-- R91: the results of a frame's `FEED`s from Idle: nothing before the last byte, the payload at it. -/
def frameResults (payload : Bytes) : List (Option Bytes) := List.replicate payload.length none ++ [some payload]

/-- R91, R95: frames fed from Idle emit each payload at its last byte, and the parser is Idle again. -/
theorem runFeeds_frames {p : Parser} (hp : p.Idle) {ps : List Bytes} (hps : ∀ x ∈ ps, 1 ≤ x.length ∧ x.length ≤ 255) :
    ∃ q, runFeeds p (ps.flatMap frameBytes) = .next (q, ps.flatMap frameResults) ∧ q.Idle := by
  induction ps generalizing p with
  | nil => exact ⟨p, rfl, hp⟩
  | cons x ps ih =>
    obtain ⟨⟨hpos, hmax⟩, hrest⟩ := List.forall_mem_cons.1 hps
    obtain ⟨p1, hframe, hp1, -⟩ := runFeeds_frame hp.1 hpos hmax
    obtain ⟨q, hrun, hq⟩ := ih hp1 hrest
    exact ⟨q, runFeeds_append_next hframe hrun, hq⟩

theorem emissions_frames (ps : List Bytes) : emissions (ps.flatMap frameResults) = ps := by
  induction ps with
  | nil => rfl
  | cons x ps ih =>
    rw [List.flatMap_cons, emissions_append, ih]
    exact congrArg (· ++ ps) (emissions_frame x.length x)

/-- R91: chunks fed one after the other are one run over their bytes. -/
theorem feedChunks_eq_runFeeds (p : Parser) (cs : List Bytes) : feedChunks p cs = runFeeds p cs.flatten := by
  induction cs generalizing p with
  | nil => rfl
  | cons c cs ih =>
    simp only [feedChunks, ih]
    exact (runFeeds_append p c cs.flatten).symm

/-- Settles O20: where the bytes are cut does not matter, and uncut they are frames fed from Idle. -/
theorem framesCutAnywhereEmitAtLastByte : Obligations.FramesCutAnywhereEmitAtLastByte := by
  intro p ps cs hp hps hcs
  rw [feedChunks_eq_runFeeds, hcs]
  exact runFeeds_frames hp hps

/-- R100: the frames `ENCF` gives are the payloads' bytes on the wire. -/
theorem flatten_encodedFrames {ps fs : List Bytes} (h : ps.map encodeFrame = fs.map EncfResult.ok) :
    fs.flatten = ps.flatMap frameBytes := by
  induction ps generalizing fs with
  | nil =>
    obtain rfl : fs = [] := List.map_eq_nil_iff.1 h.symm
    rfl
  | cons x ps ih =>
    cases fs with
    | nil => cases h
    | cons f fs =>
      obtain ⟨hx, hrest⟩ := List.cons.inj h
      obtain ⟨-, rfl⟩ := encodeFrame_eq_ok.1 hx
      rw [List.flatten_cons, ih hrest]
      rfl

/-- R95, R105: a run over encoded frames from Idle is a left inverse of `ENCF`. -/
theorem runFeeds_encodedFrames {p : Parser} (hp : p.Idle) {ps fs : List Bytes}
    (hps : ∀ x ∈ ps, 1 ≤ x.length ∧ x.length ≤ 254) (henc : ps.map encodeFrame = fs.map EncfResult.ok) :
    ∃ q rs, runFeeds p fs.flatten = .next (q, rs) ∧ q.Idle ∧ emissions rs = ps := by
  have hmax : ∀ x ∈ ps, 1 ≤ x.length ∧ x.length ≤ 255 := fun x hx => ⟨(hps x hx).1, Nat.le_succ_of_le (hps x hx).2⟩
  obtain ⟨q, hrun, hq⟩ := runFeeds_frames hp hmax
  exact ⟨q, _, by rw [flatten_encodedFrames henc, hrun], hq, emissions_frames ps⟩

/-- Settles O19: the encoded frames are frames on the wire, `parse` runs them from reset, which is Idle, and the empty
payload's frame is the zero byte. -/
theorem framingInverse : Obligations.FramingInverse := by
  refine ⟨fun _ _ _ hp => runFeeds_encodedFrames hp, fun ps fs hps henc => ?_, fun p hp => ⟨_, _, rfl, runFeeds_zero hp, rfl⟩⟩
  have hreset : Parser.reset.Idle := ⟨rfl, rfl⟩
  obtain ⟨q, rs, hrun, -, hrs⟩ := runFeeds_encodedFrames hreset hps henc
  exact (parse_of_run hrun).trans hrs

/-! ### FRAME as its FEEDs -/

/-- R94: `FEED` instructions one after the other move the parser as the run does and leave the last one's result. -/
theorem execFeeds_of_runFeeds {s : State} {b : Byte} {bs : Bytes} {q : Parser} {rs : List (Option Bytes)}
    (h : runFeeds s.parser (b :: bs) = .next (q, rs)) :
    execFeeds s (b :: bs) =
      .next { s with parser := q, window := windowOf rs.getLast?.join, result := .fed rs.getLast?.join } := by
  induction bs generalizing s b rs with
  | nil =>
    obtain ⟨p1, r, rs', hfeed, hrest, rfl⟩ := runFeeds_cons_eq_next h
    cases hrest
    rw [execFeeds, exec_feed hfeed]
    rfl
  | cons c cs ih =>
    obtain ⟨p1, r, rs', hfeed, hrest, rfl⟩ := runFeeds_cons_eq_next h
    obtain ⟨_, _, _, -, -, rfl⟩ := runFeeds_cons_eq_next hrest
    rw [execFeeds, exec_feed hfeed, andThen_next, ih hrest, List.getLast?_cons_cons]

/-- Settles O18: the row is the run over its bytes, and so are their `FEED`s. -/
theorem frameRowIsItsFeeds : Obligations.FrameRowIsItsFeeds := by
  intro s t l payload h
  obtain ⟨-, q, rs, hrun, rfl⟩ := exec_frame_cases h
  exact ⟨_, execFeeds_of_runFeeds hrun, rfl, rfl, rfl, rfl, rfl, rfl⟩

/-! ### Runs of RXSTEPs -/

/-- R140: what an `RXSTEP` of this role hands over when its `FEED` returns `r`. -/
def rxResultOfFeed (role : Role) (r : Option Bytes) : RxResult :=
  match r with
  | none => .nothing
  | some payload => rxResultOf (decodeFor role payload)

/-- R140: an `RXSTEP` answers wherever its `FEED` does. -/
theorem exec_rxstep {s : State} {b : Byte} {q : Parser} {r : Option Bytes} (h : feedParser s.parser b = .next (q, r)) :
    exec (.rxstep b) s =
      .next (handOver { s with parser := q, window := windowOf r } r (rxResultOfFeed s.role r)) := by
  cases r with
  | none => exact exec_rxstep_nothing h
  | some payload => exact exec_rxstep_completed h

/-- R140, R144: `RXSTEP`s one after the other move the parser as the run of `FEED`s does, and hand over one result for each
of its. -/
theorem execRxsteps_of_runFeeds {s : State} {bs : Bytes} {q : Parser} {rs : List (Option Bytes)}
    (h : runFeeds s.parser bs = .next (q, rs)) :
    ∃ t, execRxsteps s bs = .next t ∧ t.parser = q ∧ t.role = s.role ∧
      t.rxResults = s.rxResults ++ rs.map (rxResultOfFeed s.role) := by
  induction bs generalizing s rs with
  | nil =>
    cases h
    exact ⟨s, rfl, rfl, rfl, (List.append_nil _).symm⟩
  | cons b bs ih =>
    obtain ⟨p1, r, rs', hfeed, hrest, rfl⟩ := runFeeds_cons_eq_next h
    obtain ⟨t, hrun, hpar, hrole, hres⟩ :=
      ih (s := handOver { s with parser := p1, window := windowOf r } r (rxResultOfFeed s.role r)) hrest
    refine ⟨t, by rw [execRxsteps, exec_rxstep hfeed, andThen_next, hrun], hpar, hrole, ?_⟩
    rw [hres]
    simp

/-! ### A stream that loses every frame -/

theorem mem_emissions {rs : List (Option Bytes)} {x : Bytes} : x ∈ emissions rs ↔ some x ∈ rs := by
  simp [emissions]

/-- R144: a message is handed over only for an emitted payload that decodes to it. -/
theorem exists_emission_of_delivered {role : Role} {rs : List (Option Bytes)} {m : Message}
    (h : RxResult.delivered m ∈ rs.map (rxResultOfFeed role)) : ∃ x ∈ emissions rs, decodeFor role x = .ok m := by
  obtain ⟨r, hr, hm⟩ := List.mem_map.1 h
  cases r with
  | none => cases hm
  | some x =>
    change rxResultOf (decodeFor role x) = _ at hm
    refine ⟨x, mem_emissions.2 hr, ?_⟩
    cases hx : decodeFor role x with
    | ok k => rw [hx] at hm; cases hm; rfl
    | err e => rw [hx] at hm; cases hm

/-- P4: the good frame of `SetOutput(true)`. -/
def goodFrame : Bytes := [0x02#8, 0x00#8, 0x01#8]

/-- R89, P4: out of step by one byte, good frames read as the frame `01 02`, the zero byte and a length byte `01` that is
taken with the next one. -/
theorem runFeeds_outOfStep (n : Nat) {p : Parser} (hp : p.Idle) :
    ∃ q rs, runFeeds p (0x01#8 :: (List.replicate n goodFrame).flatten) = .next (q, rs) ∧
      emissions rs = List.replicate n [0x02#8] := by
  induction n generalizing p with
  | zero => exact ⟨_, _, runFeeds_cons (feedParser_idle 0x01#8 hp.1) [], rfl⟩
  | succ n ih =>
    obtain ⟨p1, hframe, hp1, -⟩ := runFeeds_frame hp.1 (payload := [0x02#8]) (by decide) (by decide)
    obtain ⟨q, rs, hrun, hrs⟩ := ih hp1
    have hstep := runFeeds_append_next hframe (runFeeds_append_next (runFeeds_zero hp1) hrun)
    refine ⟨q, _, hstep, ?_⟩
    rw [emissions_append, emissions_frame, emissions_append, hrs]
    rfl

/-- R89, P4: after one spurious `02` in Idle, every emitted payload starts with the tag `02`. -/
theorem runFeeds_noise (n : Nat) {p : Parser} (hp : p.Idle) :
    ∃ q rs, runFeeds p (0x02#8 :: (List.replicate n goodFrame).flatten) = .next (q, rs) ∧
      ∀ x ∈ emissions rs, ∃ fields, x = 0x02#8 :: fields := by
  cases n with
  | zero => exact ⟨_, _, runFeeds_cons (feedParser_idle 0x02#8 hp.1) [], nofun⟩
  | succ n =>
    obtain ⟨p1, hframe, hp1, -⟩ := runFeeds_frame hp.1 (payload := [0x02#8, 0x00#8]) (by decide) (by decide)
    obtain ⟨q, rs, hrun, hrs⟩ := runFeeds_outOfStep n hp1
    refine ⟨q, _, runFeeds_append_next hframe hrun, fun x hx => ?_⟩
    rw [emissions_append, emissions_frame, hrs] at hx
    rcases List.mem_append.1 hx with hx | hx
    · exact ⟨[0x00#8], List.mem_singleton.1 hx⟩
    · exact ⟨[], List.eq_of_mem_replicate hx⟩

/-- Settles O55: every payload the run emits has the unassigned tag `02`, which a Device does not decode. -/
theorem oneNoiseByteCanLoseEverything : Obligations.OneNoiseByteCanLoseEverything := by
  intro s n hrole hidle
  obtain ⟨q, rs, hrun, htag⟩ := runFeeds_noise n hidle
  obtain ⟨t, hexec, -, -, hres⟩ := execRxsteps_of_runFeeds hrun
  refine ⟨t, _, hexec, hres, ?_, fun m hm => ?_⟩
  · rw [List.length_map, runFeeds_length hrun]
    simp [goodFrame, Nat.mul_comm]
  · rw [hrole] at hm
    obtain ⟨x, hx, hdec⟩ := exists_emission_of_delivered hm
    obtain ⟨fields, rfl⟩ := htag x hx
    cases hdec

/-! ### The quiescent step -/

/-- Settles O59: the law of a step with nothing offered. -/
theorem quiescentWithoutOffers : Obligations.QuiescentWithoutOffers := fun _ => step_quiescent

end Sys2Proof.Machine

/-! PROOFS. The frame encoder: what ENCF answers for every payload length (R100, R101), and the zero byte an Idle parser
absorbs (R81), which is all that ENCF sends of the empty payload (R102). -/

namespace Sys2Proof.Machine

/-- R100: a payload that fits is framed, and only the result changes. -/
theorem exec_encf_ok (s : State) {p : Bytes} (h : p.length ≤ Config.txMaxPayload) :
    exec (.encf p) s = .next { s with result := .framed (.ok (lengthByte p :: p)) } := by
  simp only [exec, execEncf, encodeFrame_ok h, record]

/-- R101: a longer payload is answered with `Oversize`, and only the result changes. -/
theorem exec_encf_oversize (s : State) {p : Bytes} (h : Config.txMaxPayload < p.length) :
    exec (.encf p) s = .next { s with result := .framed (.err .oversize) } := by
  simp only [exec, execEncf, encodeFrame_oversize h, record]

/-- R81: the zero byte leaves an Idle parser exactly as it was. -/
theorem feedParser_zero_of_idle {p : Parser} (hp : p.Idle) : feedParser p 0x00#8 = .next (p, none) := by
  obtain ⟨el, wc, buf⟩ := p
  obtain ⟨rfl, rfl⟩ : el = 0#8 ∧ wc = 0#8 := hp
  exact feedParser_idle 0x00#8 rfl

/-- Settles O31: the encoder's two cases, and a length of at most 254 survives the narrowing to a byte (R104). -/
theorem encfResults : Obligations.EncfResults := fun s _ =>
  ⟨fun hfits => ⟨exec_encf_ok s hfits, lengthByte_toNat (by omega)⟩, exec_encf_oversize s⟩

/-- Settles O32: the empty payload's frame is its length byte 0, which leaves an Idle parser as it was; an encoding has at
least a tag byte and a field byte (R66). -/
theorem encfOfEmptyPayloadIsLost : Obligations.EncfOfEmptyPayloadIsLost := by
  refine fun s => ⟨exec_encf_ok s (Nat.zero_le _), fun r hr => ?_, fun m hm => ?_⟩
  · exact ⟨_, exec_feed (feedParser_zero_of_idle hr), rfl, rfl⟩
  · have hlen := encodeMessage_pos m
    rw [hm] at hlen
    exact absurd hlen (by decide)

end Sys2Proof.Machine

/-! PROOFS. The message codec: what the fields of each variant give (R115, R116), that decoding is the exact partial inverse
of encoding (R125), what the codec's operations and payload rows answer, that the scan of a text is the concatenation of
R119, and where a step stops. -/

namespace Sys2Proof.Machine

/-! ### The fields after the tag -/

/-- R56: a byte that is no bad bool is the byte of a bool. -/
theorem exists_boolByte_eq {x : Byte} (h : x.toNat ≤ 1) : ∃ v, x = boolByte v :=
  ⟨x == 0x01#8, (boolByte_of_le (Nat.not_lt.2 h)).symm⟩

theorem readSetOutput_whole (v : Bool) : readSetOutput [boolByte v] = .ok (.h2d (.setOutput v)) :=
  readSetOutput_bool v []

/-- R121. -/
theorem readSetOutput_trailing (v : Bool) {rest : Bytes} (h : rest ≠ []) :
    readSetOutput (boolByte v :: rest) = .err .trailingBytes := by
  rw [readSetOutput_bool]
  exact finishMessage_eq_err.2 ⟨h, rfl⟩

/-- R115: the only fields that read as a message are one bool byte. -/
theorem readSetOutput_eq_ok {fields : Bytes} {m : Message} :
    readSetOutput fields = .ok m ↔ ∃ v, fields = [boolByte v] ∧ m = .h2d (.setOutput v) := by
  constructor
  · intro h
    unfold readSetOutput at h
    split at h
    next => cases h
    next v rest hread =>
      obtain ⟨rfl, rfl⟩ := finishMessage_eq_ok.1 h
      exact ⟨v, readBool_eq_got.1 hread, rfl⟩
  · rintro ⟨v, rfl, rfl⟩
    exact readSetOutput_whole v

theorem readPrint_whole {n : Byte} {text : Text} (h : n.toNat = text.bytes.length) :
    readPrint (n :: text.bytes) = .ok (.d2h (.print text)) := by
  rw [readPrint_got (t := text) (Nat.le_of_eq h) (by rw [h, List.take_length])]
  exact finishMessage_eq_ok.2 ⟨by rw [h, List.drop_length], rfl⟩

/-- R121. -/
theorem readPrint_trailing {n : Byte} {rest : Bytes} {text : Text} (h : n.toNat < rest.length)
    (ht : text.bytes = rest.take n.toNat) : readPrint (n :: rest) = .err .trailingBytes := by
  rw [readPrint_got (Nat.le_of_lt h) ht]
  exact finishMessage_eq_err.2 ⟨fun hdrop => Nat.not_le.2 h (List.drop_eq_nil_iff.1 hdrop), rfl⟩

/-- R116: the only fields that read as a message are one text, with its length before it. -/
theorem readPrint_eq_ok {fields : Bytes} {m : Message} :
    readPrint fields = .ok m ↔ ∃ text : Text, fields = lengthByte text.bytes :: text.bytes ∧ m = .d2h (.print text) := by
  constructor
  · intro h
    unfold readPrint at h
    split at h
    next => cases h
    next text rest hread =>
      obtain ⟨rfl, rfl⟩ := finishMessage_eq_ok.1 h
      have hfields := readText_eq_got.1 hread
      rw [List.append_nil] at hfields
      exact ⟨text, hfields, rfl⟩
  · rintro ⟨text, rfl, rfl⟩
    exact readPrint_whole (lengthByte_toNat text.length_lt)

/-! ### The inverse of encoding -/

/-- R125: what `DEC_H2D` accepts, and as what. -/
theorem decodeH2D_eq_ok {p : Bytes} {m : Message} :
    decodeH2D p = .ok m ↔ (∃ k, m = .h2d k) ∧ p = encodeMessage m := by
  constructor
  · intro h
    cases p with
    | nil => cases h
    | cons t fields =>
      rw [decodeH2D_cons] at h
      split at h
      next htag =>
        obtain ⟨v, rfl, rfl⟩ := readSetOutput_eq_ok.1 h
        exact ⟨⟨_, rfl⟩, by rw [htag]; rfl⟩
      next => cases h
  · rintro ⟨⟨⟨v⟩, rfl⟩, rfl⟩
    exact readSetOutput_whole v

/-- R125: what `DEC_D2H` accepts, and as what. -/
theorem decodeD2H_eq_ok {p : Bytes} {m : Message} :
    decodeD2H p = .ok m ↔ (∃ k, m = .d2h k) ∧ p = encodeMessage m := by
  constructor
  · intro h
    cases p with
    | nil => cases h
    | cons t fields =>
      rw [decodeD2H_cons] at h
      split at h
      next htag =>
        obtain ⟨text, rfl, rfl⟩ := readPrint_eq_ok.1 h
        exact ⟨⟨_, rfl⟩, by rw [htag]; rfl⟩
      next => cases h
  · rintro ⟨⟨⟨text⟩, rfl⟩, rfl⟩
    exact readPrint_whole (lengthByte_toNat text.length_lt)

/-- R125: the decoder of a message's direction gives it back. -/
theorem decodeLike_encodeMessage (m : Message) : decodeLike m (encodeMessage m) = .ok m := by
  cases m with
  | h2d k => exact decodeH2D_eq_ok.2 ⟨⟨k, rfl⟩, rfl⟩
  | d2h k => exact decodeD2H_eq_ok.2 ⟨⟨k, rfl⟩, rfl⟩

/-- R125: within a direction the encoding determines the message, since one decoder gives back both. -/
theorem encodeMessage_inj {m m' : Message} (hdir : decodeLike m = decodeLike m')
    (h : encodeMessage m = encodeMessage m') : m = m' := by
  have hboth : DecResult.ok m = .ok m' := by
    rw [← decodeLike_encodeMessage m, ← decodeLike_encodeMessage m', hdir, h]
  exact DecResult.ok.inj hboth

/-- Settles O43: a decoder answers `Ok` exactly on the encodings of its direction's messages. -/
theorem codecRoundTrip : Obligations.CodecRoundTrip :=
  ⟨decodeLike_encodeMessage, fun _ _ => decodeH2D_eq_ok.1, fun _ _ => decodeD2H_eq_ok.1,
    fun _ _ h => Message.h2d.inj (encodeMessage_inj rfl h), fun _ _ h => Message.d2h.inj (encodeMessage_inj rfl h)⟩

/-! ### DEC and its arms -/

/-- R115: after the tag, `DEC_H2D` answers what the fields read as. -/
theorem exec_decH2D_of_read {fields : Bytes} {r : DecResult} (h : readSetOutput fields = r) (s : State) :
    exec (.decH2D (0x00#8 :: fields)) s = .next { s with result := .decoded r } := by
  subst h
  rfl

/-- R117: whatever follows the tag. -/
theorem exec_decH2D_reservedTag {t : Byte} (h : t ≠ 0x00#8) (rest : Bytes) (s : State) :
    exec (.decH2D (t :: rest)) s = .next { s with result := .decoded (.err .unknownTag) } := by
  have hdec : decodeH2D (t :: rest) = .err .unknownTag := if_neg h
  simp only [exec, execDecH2D, hdec, record]

/-- R116: after the tag, `DEC_D2H` answers what the fields read as. -/
theorem exec_decD2H_of_read {fields : Bytes} {r : DecResult} (h : readPrint fields = r) (s : State) :
    exec (.decD2H (0x00#8 :: fields)) s = .next { s with result := .decoded r } := by
  subst h
  rfl

/-- R117: whatever follows the tag. -/
theorem exec_decD2H_reservedTag {t : Byte} (h : t ≠ 0x00#8) (rest : Bytes) (s : State) :
    exec (.decD2H (t :: rest)) s = .next { s with result := .decoded (.err .unknownTag) } := by
  have hdec : decodeD2H (t :: rest) = .err .unknownTag := if_neg h
  simp only [exec, execDecD2H, hdec, record]

/-- Settles O35: no tag, a reserved tag, and what each form of the fields reads as. -/
theorem decH2DResults : Obligations.DecH2DResults := by
  refine fun s t x rest => ⟨rfl, fun ht => exec_decH2D_reservedTag ht rest s, exec_decH2D_of_read readSetOutput_nil s,
    fun hx => exec_decH2D_of_read (readSetOutput_bad rest hx) s, fun hx hrest => ?_, fun hx => ?_⟩
  · obtain ⟨v, rfl⟩ := exists_boolByte_eq hx
    exact exec_decH2D_of_read (readSetOutput_trailing v hrest) s
  · obtain ⟨v, rfl⟩ := exists_boolByte_eq hx
    have hv : decide (boolByte v = 0x01#8) = v := boolByte_beq v
    rw [hv]
    exact exec_decH2D_of_read (readSetOutput_whole v) s

/-- Settles O36: no tag, a reserved tag, and what each form of the fields reads as. -/
theorem decD2HResults : Obligations.DecD2HResults := by
  refine fun s t n rest => ⟨rfl, fun ht => exec_decD2H_reservedTag ht rest s, exec_decD2H_of_read readPrint_nil s,
    fun hshort => exec_decD2H_of_read (readPrint_short hshort) s,
    fun hlen hinvalid => exec_decD2H_of_read (readPrint_invalid hlen hinvalid) s,
    fun text htext hlong => exec_decD2H_of_read (readPrint_trailing hlong htext) s, ?_⟩
  rintro text rfl hlen
  exact exec_decD2H_of_read (readPrint_whole hlen) s

/-- R110, R126: `DEC` answers what the role's decoder does. -/
theorem exec_dec_of_decodeFor {s : State} {p : Bytes} {r : DecResult} (h : decodeFor s.role p = r) :
    exec (.dec p) s = .next { s with result := .decoded r } := by
  subst h
  rfl

/-- Settles O37: the role selects the decoder, and the answer is the decoder's in either role. -/
theorem decUsesTheRolesArm : Obligations.DecUsesTheRolesArm := by
  refine fun s p => ⟨fun hrole => ?_, fun hrole => ?_, _, _, exec_dec_of_decodeFor rfl, rfl⟩
  · have harm : decodeFor s.role p = decodeH2D p := by rw [hrole]; rfl
    exact exec_dec_of_decodeFor harm
  · have harm : decodeFor s.role p = decodeD2H p := by rw [hrole]; rfl
    exact exec_dec_of_decodeFor harm

/-! ### The payload rows -/

/-- Settles O39: a row answers what its fields read as, or by its own pattern. -/
theorem h2dRowResults : Obligations.H2dRowResults := by
  refine fun s v x rest => ⟨rfl, ?_, fun hrest => ?_, fun hx => if_pos hx, fun hx => if_neg hx⟩
  · rw [← decodeH2DRow_setOutput, exec_decodeH2DRow]
    exact exec_decH2D_of_read (readSetOutput_whole v) s
  · rw [← decodeH2DRow_setOutput, exec_decodeH2DRow]
    exact exec_decH2D_of_read (readSetOutput_trailing v hrest) s

/-- R114: the row D2H.Print is `DEC_D2H` of its own payload. -/
theorem exec_d2hPrint (n : Option Byte) (rest : Bytes) (s : State) :
    exec (.d2hPrint n rest) s = exec (.decD2H (0x00#8 :: fieldBytes n rest)) s := rfl

/-- Settles O40: D2H.Print answers as `DEC_D2H` does, and the reserved tags by their pattern. -/
theorem d2hRowResults : Obligations.D2hRowResults := by
  intro s n rest
  obtain ⟨-, -, halone, hshort, hinvalid, htrailing, hwhole⟩ := decD2HResults s n n rest
  simp only [exec_d2hPrint, fieldBytes]
  exact ⟨halone, hshort, hinvalid, htrailing, hwhole, fun hn => if_neg hn⟩

/-! ### ENC -/

/-- Settles O33: the meaning of `ENC.SetOutput`, whose two bytes are the tag and the bool. -/
theorem encSetOutputResult : Obligations.EncSetOutputResult := fun _ _ => rfl

/-- Settles O34: the meaning of `ENC.Print`; a text is short enough for its length to be one byte (R127). -/
theorem encPrintResult : Obligations.EncPrintResult := fun _ t => ⟨rfl, lengthByte_toNat t.length_lt⟩

/-! ### Valid UTF-8 -/

/-- R119: a well-formed sequence before a text changes nothing of its validity. -/
theorem validUtf8_append_of_seq {s : Bytes} (hs : WellFormedSeq s) (u : Bytes) : validUtf8 (s ++ u) = validUtf8 u := by
  obtain ⟨row, hrow, hmatch⟩ := hs
  cases hmatch with
  | nil => exact absurd hrow (by decide)
  | cons hb hrest =>
    have hfollow := utf8Follow_of_row hrow hb
    simp only [validUtf8, List.cons_append, utf8Scan, hfollow, utf8Scan_append hrest]

/-- R119: a valid text that is not empty begins with a well-formed sequence, and what follows it is valid. -/
theorem exists_seq_of_validUtf8_cons {b : Byte} {t : Bytes} (h : validUtf8 (b :: t) = true) :
    ∃ s u, t = s ++ u ∧ WellFormedSeq (b :: s) ∧ validUtf8 u = true := by
  unfold validUtf8 utf8Scan at h
  split at h
  next => cases h
  next needed hfollow =>
    obtain ⟨r, hrow, hb⟩ := row_of_utf8Follow hfollow
    obtain ⟨s, u, rfl, hs, hu⟩ := utf8Scan_split h
    exact ⟨s, u, rfl, ⟨_, hrow, .cons hb hs⟩, hu⟩

theorem concatOfWellFormed_append {s u : Bytes} (hs : WellFormedSeq s) (hu : ConcatOfWellFormed u) :
    ConcatOfWellFormed (s ++ u) := by
  obtain ⟨ss, hss, rfl⟩ := hu
  exact ⟨s :: ss, List.forall_mem_cons.2 ⟨hs, hss⟩, rfl⟩

/-- R119: by the number of bytes, taking one sequence off the front at a time. -/
theorem concatOfWellFormed_of_validUtf8 {t : Bytes} (h : validUtf8 t = true) : ConcatOfWellFormed t := by
  induction hn : t.length using Nat.strong_induction_on generalizing t with
  | _ n ih =>
    cases t with
    | nil => exact ⟨[], nofun, rfl⟩
    | cons b t =>
      obtain ⟨s, u, rfl, hseq, hu⟩ := exists_seq_of_validUtf8_cons h
      have hlt : u.length < n := by
        simp only [List.length_cons, List.length_append] at hn
        omega
      exact concatOfWellFormed_append hseq (ih u.length hlt hu rfl)

/-- R119: by the number of sequences. -/
theorem validUtf8_flatten {ss : List Bytes} (h : ∀ s ∈ ss, WellFormedSeq s) : validUtf8 ss.flatten = true := by
  induction ss with
  | nil => rfl
  | cons s ss ih =>
    obtain ⟨hs, hss⟩ := List.forall_mem_cons.1 h
    rw [List.flatten_cons, validUtf8_append_of_seq hs]
    exact ih hss

theorem validUtf8_iff_concatOfWellFormed {t : Bytes} : validUtf8 t = true ↔ ConcatOfWellFormed t := by
  constructor
  · exact concatOfWellFormed_of_validUtf8
  · rintro ⟨ss, hss, rfl⟩
    exact validUtf8_flatten hss

/-- Every byte of a matched sequence lies in one of the row's ranges. -/
theorem exists_range_of_mem {row : List ByteRange} {s : Bytes} (h : List.Forall₂ (fun r b => inRange r b = true) row s)
    {b : Byte} (hb : b ∈ s) : ∃ r ∈ row, inRange r b = true := by
  induction h with
  | nil => cases hb
  | @cons r c row s hr _ ih =>
    rcases List.mem_cons.1 hb with rfl | hb
    · exact ⟨r, List.mem_cons_self, hr⟩
    · obtain ⟨r', hmem, hr'⟩ := ih hb
      exact ⟨r', List.mem_cons_of_mem r hmem, hr'⟩

/-- R119: every range of the table ends before 0xC0, or begins after 0xC1 and ends before 0xF5. -/
theorem utf8Table_range {row : List ByteRange} {r : ByteRange} (hrow : row ∈ utf8Table) (hr : r ∈ row) :
    r.2 < 0xC0 ∨ (0xC1 < r.1 ∧ r.2 < 0xF5) := by
  have htable : ∀ row ∈ utf8Table, ∀ r ∈ row, r.2 < 0xC0 ∨ (0xC1 < r.1 ∧ r.2 < 0xF5) := by decide
  exact htable row hrow r hr

/-- R119: the bytes that no well-formed sequence holds. -/
theorem byte_of_wellFormedSeq {s : Bytes} (hs : WellFormedSeq s) {b : Byte} (hb : b ∈ s) :
    b ≠ 0xC0#8 ∧ b ≠ 0xC1#8 ∧ b.toNat < 0xF5 := by
  obtain ⟨row, hrow, hmatch⟩ := hs
  obtain ⟨r, hr, hin⟩ := exists_range_of_mem hmatch hb
  have hbounds : r.1 ≤ b.toNat ∧ b.toNat ≤ r.2 := of_decide_eq_true hin
  have hrange := utf8Table_range hrow hr
  have hC0 : b.toNat ≠ 0xC0 := by omega
  have hC1 : b.toNat ≠ 0xC1 := by omega
  exact ⟨fun h => hC0 (congrArg BitVec.toNat h), fun h => hC1 (congrArg BitVec.toNat h), by omega⟩

/-- Settles O41: the scan takes one sequence off the front at a time, and each byte of a sequence lies in a range of the
table. -/
theorem validUtf8IsConcatOfSequences : Obligations.ValidUtf8IsConcatOfSequences := by
  refine ⟨fun _ => validUtf8_iff_concatOfWellFormed, rfl, fun t b ht hb => ?_⟩
  obtain ⟨ss, hss, rfl⟩ := validUtf8_iff_concatOfWellFormed.1 ht
  obtain ⟨s, hs, hbs⟩ := List.mem_flatten.1 hb
  exact byte_of_wellFormedSeq (hss s hs) hbs

/-! ### Where a step stops -/

/-- R126, R145: a port that the role does not have. -/
theorem step_portAbsent {s : State} {x : Transfer} {rest : List Transfer} (h : s.pending = x :: rest)
    (hp : x.presentIn s.role = false) : step s = .refused .portAbsent := by
  simp [step, h, hp]

/-- R15, R202: a received byte to which no class applies. -/
theorem step_unreachable {s : State} {b : Byte} {rest : List Transfer} (h : s.pending = .rxClass b :: rest)
    (hel : s.parser.el ≠ 0#8) (hwc : s.parser.el.toNat ≤ s.parser.wc.toNat) : step s = .refused .unreachableState := by
  simp [step, h, Transfer.presentIn, decode, decodeRx, rxClass_none b hel hwc]

/-- R15, R53: in a reachable parser state every offer is an instruction. -/
theorem decode_of_inFrame {p : Parser} (hp : p.InFrame) (x : Transfer) : ∃ i, decode p.el p.wc x = .ok i := by
  rcases decode_total p.el p.wc x with ⟨b, rfl⟩ | hdecodes
  · have hclass := rxClass_ne_none b ((Classical.em (p.el = 0#8)).imp_right hp.2)
    obtain ⟨c, hc⟩ := Option.ne_none_iff_exists'.1 hclass
    exact ⟨_, decodeRx_of_class hc⟩
  · exact hdecodes

/-- Settles O60: the two refusals of a step, and that a reachable parser state has a class for every byte. -/
theorem stepStops : Obligations.StepStops := by
  refine fun s x rest h => ⟨step_portAbsent h, ?_, fun hp => decode_of_inFrame hp x⟩
  rintro b rfl hel hwc
  exact step_unreachable h hel hwc

end Sys2Proof.Machine

/-! PROOFS. The endpoint pipeline: what SEND writes or refuses (R142), what every instruction leaves of the boundary, what
RXSTEP hands over and leaves behind (R140, R148), the ports of both sides (R145), and delivery of framed messages, by
RXSTEPs and over an ideal link between two endpoints (R146, R147). -/

namespace Sys2Proof.Machine

/-! ### SEND -/

/-- R66: only a text of 253 bytes or more does not frame. -/
theorem not_representable_iff {m : Message} :
    ¬ Representable m ↔ ∃ x : Text, m = .d2h (.print x) ∧ 253 ≤ x.bytes.length := by
  rcases m with ⟨⟨v⟩⟩ | ⟨⟨x⟩⟩
  · simp [representable_setOutput]
  · simp [representable_print, Nat.lt_iff_add_one_le]

/-- R142, R101: an outbound message that does not frame writes nothing. -/
theorem exec_send_oversize {s : State} {m : Message} (hd : outboundOf s.role m = true)
    (h : Config.txMaxPayload < (encodeMessage m).length) :
    exec (.send m) s = .next { s with result := .send (.failed .oversize) } := by
  simp [exec, execSend, hd, encodeFrame_oversize h]

theorem exec_send_inbound {s : State} {m : Message} (hd : outboundOf s.role m = false) :
    exec (.send m) s = .refused .wrongDirection := by
  simp [exec, execSend, hd]

/-- Settles O50: an outbound message frames or is a text too long to, and `SEND` has one law for each. -/
theorem sendResults : Obligations.SendResults := fun _ _ hd =>
  ⟨Nat.not_le.symm.trans not_representable_iff, exec_send hd, exec_send_oversize hd⟩

/-- Settles O51: the role determines the outbound type. -/
theorem sendRefusesInboundType : Obligations.SendRefusesInboundType := fun _ _ _ =>
  ⟨fun hrole => exec_send_inbound (by rw [hrole]; rfl), fun hrole => exec_send_inbound (by rw [hrole]; rfl)⟩

/-! ### The boundary -/

/-- R80: an instruction that feeds or resets answers as a `FEED` does, or is `FRAME`, `RESET` or `RXSTEP`. -/
theorem writesParser_forms {i : Instr} {s t : State} (hi : i.writesParser = true) (h : exec i s = .next t) :
    (∃ b, exec (.feed b) s = .next t) ∨ (∃ l payload, i = .frame l payload) ∨ i = .reset ∨ ∃ b, i = .rxstep b := by
  cases i with
  | rxLen0 => exact .inl ⟨_, exec_rxLen0_eq_feed (inClass_cases h).1 ▸ h⟩
  | rxLen => exact .inl ⟨_, exec_rxLen_eq_feed (inClass_cases h).1 ▸ h⟩
  | rxData => exact .inl ⟨_, exec_rxData_eq_feed (inClass_cases h).1 ▸ h⟩
  | rxLast => exact .inl ⟨_, exec_rxLast_eq_feed (inClass_cases h).1 ▸ h⟩
  | feed => exact .inl ⟨_, h⟩
  | frame l payload => exact .inr (.inl ⟨l, payload, rfl⟩)
  | reset => exact .inr (.inr (.inl rfl))
  | rxstep b => exact .inr (.inr (.inr ⟨b, rfl⟩))
  | h2dSetOutput | encf | encSetOutput | encPrint | dec | decH2D | decD2H | h2dBadBool | h2dReservedTag
  | d2hReservedTag | d2hPrint | send => cases hi

/-- R144: an instruction that feeds or resets leaves the role, the offers and the frames written, drives no frame, and
hands a result over only if it is `RXSTEP`. -/
theorem exec_writesParser_cases {i : Instr} {s t : State} (hi : i.writesParser = true) (h : exec i s = .next t) :
    ∃ p w r xs, t = { s with parser := p, window := w, result := r, rxResults := s.rxResults ++ xs } ∧
      txFrame t = none ∧ ((∀ b, i ≠ .rxstep b) → xs = []) := by
  rcases writesParser_forms hi h with ⟨b, hb⟩ | ⟨l, payload, rfl⟩ | rfl | ⟨b, rfl⟩
  · obtain ⟨q, r, -, rfl⟩ := exec_feed_cases hb
    exact ⟨q, _, _, [], by rw [List.append_nil], rfl, fun _ => rfl⟩
  · obtain ⟨-, q, rs, -, rfl⟩ := exec_frame_cases h
    exact ⟨q, _, _, [], by rw [List.append_nil], rfl, fun _ => rfl⟩
  · cases h
    exact ⟨_, _, _, [], by rw [List.append_nil]; rfl, rfl, fun _ => rfl⟩
  · obtain ⟨q, r, x, -, rfl, -⟩ := exec_rxstep_cases h
    exact ⟨q, _, _, [x], rfl, rfl, fun hb => absurd rfl (hb b)⟩

/-- R41, R190 (log entries 13 and 20): an instruction that feeds nothing leaves the window. -/
theorem exec_unfed_window {i : Instr} {s t : State} (hi : i.writesParser = false ∨ i = .reset)
    (h : exec i s = .next t) : t.window = s.window := by
  rcases hi with hi | rfl
  · obtain ⟨_, _, rfl, -⟩ := exec_pure_cases hi h
    rfl
  · cases h
    rfl

/-- Settles O30: an instruction either writes the parser or does not, and each side leaves the other's records. -/
theorem boundaryFrame : Obligations.BoundaryFrame := by
  intro i s t h
  rcases Bool.eq_false_or_eq_true i.writesParser with hi | hi
  · obtain ⟨p, w, r, xs, rfl, -, hxs⟩ := exec_writesParser_cases hi h
    exact ⟨rfl, rfl, fun hb => by simp [hxs hb], fun _ => rfl, fun hu => exec_unfed_window hu h⟩
  · obtain ⟨r, fs, rfl, hfs⟩ := exec_pure_cases hi h
    exact ⟨rfl, rfl, fun _ => rfl, fun hm => by simp [hfs hm], fun hu => exec_unfed_window hu h⟩

/-! ### The transmit ports -/

/-- R145: what is driven at the transmit side is a frame that `ENCF` gives for some payload. -/
theorem encodeFrame_of_txFrame {i : Instr} {s t : State} {f : Bytes} (h : exec i s = .next t)
    (hf : txFrame t = some f) : ∃ p, encodeFrame p = .ok f := by
  cases hi : i.writesParser with
  | true =>
    obtain ⟨_, _, _, _, -, hnone, -⟩ := exec_writesParser_cases hi h
    rw [hnone] at hf
    cases hf
  | false =>
    cases i with
    | rxLen0 | rxLen | rxData | rxLast | frame | feed | reset | rxstep => cases hi
    | h2dSetOutput | d2hPrint | encSetOutput | encPrint | dec | decH2D | decD2H =>
      cases h
      cases hf
    | h2dBadBool | h2dReservedTag | d2hReservedTag =>
      simp only [exec, execH2dBadBool, execH2dReservedTag, execD2hReservedTag] at h
      split at h <;> cases h
      cases hf
    | encf p =>
      cases h
      refine ⟨p, ?_⟩
      cases henc : encodeFrame p with
      | ok g => simpa [txFrame, henc] using hf
      | err e => simp [txFrame, henc] at hf
    | send m =>
      obtain ⟨-, ⟨g, hg, rfl⟩ | ⟨e, -, rfl⟩⟩ := exec_send_cases h
      · cases hf
        exact ⟨_, hg⟩
      · cases hf

theorem txTransfers_bytes (f : Bytes) : (txTransfers f).map Prod.fst = f := by
  induction f with
  | nil => rfl
  | cons b f ih =>
    cases f with
    | nil => rfl
    | cons c f => simpa [txTransfers] using ih

/-- R145: `tx_last` marks the last byte and no other. -/
theorem txTransfers_last (b : Byte) (f : Bytes) :
    (txTransfers (b :: f)).map Prod.snd = List.replicate f.length false ++ [true] := by
  induction f generalizing b with
  | nil => rfl
  | cons c f ih => simp [txTransfers, ih, List.replicate_succ]

/-- R145: `tx_byte` carries the frame that `SEND` or `ENCF` answered, and `tx_err` stays 0. -/
theorem txPorts_of_frame {t : State} {f : Bytes} (h : t.result = .send (.sent f) ∨ t.result = .framed (.ok f)) :
    txFrame t = some f ∧ txErr t = 0#1 := by
  rcases h with h | h <;> simp [txFrame, txErr, h]

/-- R145, R161: a refused `SEND` or `ENCF` drives `tx_err` alone. -/
theorem txPorts_of_failure {t : State} {e : EncodeError}
    (h : t.result = .send (.failed e) ∨ t.result = .framed (.err e)) : txFrame t = none ∧ txErr t = 1#1 := by
  cases e
  rcases h with h | h <;> simp [txFrame, txErr, txErrCode, h]

/-- Settles O57: a driven frame is `ENCF`'s, so it starts with a true length byte and is not empty. -/
theorem transmitPorts : Obligations.TransmitPorts := by
  refine fun s t i h => ⟨fun f hf => ?_, fun e => txPorts_of_failure⟩
  obtain ⟨hframe, herr⟩ := txPorts_of_frame hf
  obtain ⟨p, hp⟩ := encodeFrame_of_txFrame h hframe
  obtain ⟨hfits, rfl⟩ := encodeFrame_eq_ok.1 hp
  exact ⟨hframe, herr, ⟨p, rfl, hfits⟩, txTransfers_bytes _, txTransfers_last _ p⟩

/-! ### RXSTEP -/

/-- R110, R125, R126: a role's decoder accepts exactly the encodings of its inbound messages. -/
theorem decodeFor_eq_ok {r : Role} {p : Bytes} {m : Message} :
    decodeFor r p = .ok m ↔ outboundOf r m = false ∧ p = encodeMessage m := by
  cases r with
  | device =>
    rw [decodeFor, decodeH2D_eq_ok]
    cases m <;> simp [outboundOf]
  | host =>
    rw [decodeFor, decodeD2H_eq_ok]
    cases m <;> simp [outboundOf]

theorem rxResultOfFeed_eq_delivered {role : Role} {r : Option Bytes} {m : Message} :
    rxResultOfFeed role r = .delivered m ↔ ∃ p, r = some p ∧ decodeFor role p = .ok m := by
  cases r with
  | none => simp [rxResultOfFeed]
  | some p => cases hp : decodeFor role p <;> simp [rxResultOfFeed, rxResultOf, hp]

theorem rxResultOfFeed_eq_failed {role : Role} {r : Option Bytes} {e : DecodeError} :
    rxResultOfFeed role r = .failed e ↔ ∃ p, r = some p ∧ decodeFor role p = .err e := by
  cases r with
  | none => simp [rxResultOfFeed]
  | some p => cases hp : decodeFor role p <;> simp [rxResultOfFeed, rxResultOf, hp]

/-- R140: what an `RXSTEP`'s result says of the byte's `FEED`. -/
theorem exec_rxstep_inv {s t : State} {b : Byte} {fed : Option Bytes} {x : RxResult}
    (h : exec (.rxstep b) s = .next t) (hr : t.result = .rxstep fed x) :
    feedParser s.parser b = .next (t.parser, fed) ∧ x = rxResultOfFeed s.role fed ∧ t.role = s.role ∧
      t.window = windowOf fed := by
  obtain ⟨q, r, _, hfeed, -, -⟩ := exec_rxstep_cases h
  cases (exec_rxstep hfeed).symm.trans h
  cases hr
  exact ⟨hfeed, rfl, rfl, rfl⟩

/-- Settles O45: both instructions move the parser as its `FEED` does, and the result is the role's decode. -/
theorem rxstepResult : Obligations.RxstepResult := by
  intro s b hframe
  obtain ⟨q, r, hfeed⟩ := feedParser_total hframe b
  have hrx {x : RxResult} (hx : rxResultOfFeed s.role r = x) : exec (.rxstep b) s =
      .next (handOver { s with parser := q, window := windowOf r } r x) := hx ▸ exec_rxstep hfeed
  refine ⟨_, r, exec_feed hfeed, rfl, ?_, ?_, ?_⟩
  · rintro rfl
    exact hrx rfl
  · rintro p m rfl hm
    exact hrx (rxResultOfFeed_eq_delivered.2 ⟨p, rfl, hm⟩)
  · rintro p e rfl he
    exact hrx (rxResultOfFeed_eq_failed.2 ⟨p, rfl, he⟩)

/-! ### Delivery by RXSTEPs -/

/-- R147: an encoding that frames is a payload the parser can emit. -/
theorem Representable.frameable {m : Message} (h : Representable m) :
    1 ≤ (encodeMessage m).length ∧ (encodeMessage m).length ≤ 255 :=
  ⟨Nat.le_of_succ_le (encodeMessage_pos m), Nat.le_succ_of_le h⟩

/-- R140: the results of a frame that carries an inbound message. -/
theorem map_frameResults {role : Role} {m : Message} (hd : outboundOf role m = false) :
    (frameResults (encodeMessage m)).map (rxResultOfFeed role) = deliveryOf m := by
  have hm : rxResultOfFeed role (some (encodeMessage m)) = .delivered m :=
    rxResultOfFeed_eq_delivered.2 ⟨_, rfl, decodeFor_eq_ok.2 ⟨hd, rfl⟩⟩
  rw [frameResults, List.map_append, List.map_replicate, List.map_singleton, hm]
  rfl

/-- R146: frames of inbound messages are handed over in order, each at its last byte, and the parser is Idle again. -/
theorem execRxsteps_frames {s : State} (hidle : s.parser.Idle) {ms : List Message}
    (hms : ∀ m ∈ ms, outboundOf s.role m = false ∧ Representable m) :
    ∃ t, execRxsteps s (ms.flatMap fun m => frameBytes (encodeMessage m)) = .next t ∧ t.parser.Idle ∧
      t.rxResults = s.rxResults ++ ms.flatMap deliveryOf := by
  have hps : ∀ x ∈ ms.map encodeMessage, 1 ≤ x.length ∧ x.length ≤ 255 :=
    List.forall_mem_map.2 fun m hm => (hms m hm).2.frameable
  obtain ⟨q, hrun, hq⟩ := runFeeds_frames hidle hps
  obtain ⟨t, ht, rfl, -, hres⟩ := execRxsteps_of_runFeeds hrun
  refine ⟨t, by rw [← ht, List.flatMap_map], hq, ?_⟩
  rw [hres, List.flatMap_map, List.map_flatMap, List.flatMap_congr fun m hm => map_frameResults (hms m hm).1]

/-- R147: one frame. -/
theorem execRxsteps_frame {s : State} (hidle : s.parser.Idle) {m : Message} (hd : outboundOf s.role m = false)
    (hr : Representable m) :
    ∃ t, execRxsteps s (frameBytes (encodeMessage m)) = .next t ∧ t.parser.Idle ∧
      t.rxResults = s.rxResults ++ deliveryOf m := by
  have hone := execRxsteps_frames hidle (ms := [m]) (by simpa using ⟨hd, hr⟩)
  simpa using hone

/-- R147: `parse` of a representable message's frame is its payload. -/
theorem parse_frame {m : Message} (hr : Representable m) : parse (frameBytes (encodeMessage m)) = [encodeMessage m] := by
  obtain ⟨hpos, hmax⟩ := hr.frameable
  obtain ⟨q, hrun, -⟩ := runFeeds_frame (p := Parser.reset) rfl hpos hmax
  exact (parse_of_run hrun).trans (emissions_frame _ _)

/-- Settles O53: `ENCF` puts the length byte before the encoding, which the direction's decoder gives back. -/
theorem roundTripWithFraming : Obligations.RoundTripWithFraming := fun m hr =>
  ⟨frameBytes (encodeMessage m), encodeFrame_ok hr, rfl, congrArg some (decodeLike_encodeMessage m), parse_frame hr,
    fun _ hidle hd => execRxsteps_frame hidle hd hr⟩

/-! ### After a failed decode -/

/-- R22: between frames nothing is left that a later `FEED` could read. -/
theorem Parser.Idle.agree {p q : Parser} (hp : p.Idle) (hq : q.Idle) : p.Agree q := by
  obtain ⟨hel, hwc⟩ := hp
  refine ⟨hel.trans hq.1.symm, hwc.trans hq.2.symm, fun i hi => ?_⟩
  rw [hwc] at hi
  exact absurd hi (Nat.not_lt_zero i)

/-- R148: a decode can fail only on a completed payload, which leaves the parser Idle. -/
theorem idle_of_rxstep_failed {s t : State} {b : Byte} {fed : Option Bytes} {e : DecodeError}
    (h : exec (.rxstep b) s = .next t) (hr : t.result = .rxstep fed (.failed e)) : t.parser.Idle := by
  obtain ⟨hfeed, hx, -⟩ := exec_rxstep_inv h hr
  obtain ⟨p, rfl, -⟩ := rxResultOfFeed_eq_failed.1 hx.symm
  obtain ⟨-, -, hidle, -⟩ := feedParser_completes hfeed
  exact hidle

/-- Settles O46: a failed decode leaves an Idle parser, which answers as the reset one does and delivers a good frame. -/
theorem failedDecodeLeavesParserReady : Obligations.FailedDecodeLeavesParserReady := by
  intro s t b h
  refine ⟨?_, fun fed e hr => ?_, fun fed e m f hr hd hf => ?_⟩
  · obtain ⟨q, r, _, hfeed, rfl, -⟩ := exec_rxstep_cases h
    exact ⟨_, exec_feed hfeed, rfl⟩
  · have hidle := idle_of_rxstep_failed h hr
    refine ⟨hidle, fun bs q rs hrun => ?_⟩
    have hreset : Parser.reset.Idle := ⟨rfl, rfl⟩
    obtain ⟨q', hrun', -⟩ := runFeeds_agree (hreset.agree hidle) hrun
    exact ⟨q', hrun'⟩
  · obtain ⟨hfits, rfl⟩ := encodeFrame_eq_ok.1 hf
    obtain ⟨u, hu, -, hres⟩ := execRxsteps_frame (idle_of_rxstep_failed h hr) hd hfits
    exact ⟨u, hu, hres⟩

/-! ### The receive ports -/

/-- R145: the payload a completing `RXSTEP` drives its ports with is the one its result names. -/
theorem exists_result_of_completed {s t : State} {b : Byte} {p : Bytes} (h : exec (.rxstep b) s = .next t)
    (hp : completed t.result = some p) : ∃ x, t.result = .rxstep (some p) x := by
  obtain ⟨q, r, x, -, rfl, -⟩ := exec_rxstep_cases h
  cases hp
  exact ⟨x, rfl⟩

section Completed
variable {s t : State} {b : Byte} {p : Bytes} (h : exec (.rxstep b) s = .next t)
include h

/-- R41, R145: the view is open on the completed payload, at `BUF`'s first bytes. -/
theorem plData_of_completed (hp : completed t.result = some p) (a : Byte) : plData t a = p[a.toNat]? := by
  obtain ⟨x, hr⟩ := exists_result_of_completed h hp
  obtain ⟨hfeed, -, -, hw⟩ := exec_rxstep_inv h hr
  obtain ⟨-, -, -, hlen, hslice, -⟩ := feedParser_completes hfeed
  have hdata : plData t a = if a.toNat < p.length then some (bufByte t.parser.buf a.toNat) else none := by
    simp only [plData, hw, windowOf, Option.map_some, lengthByte_of_length hlen, hlen]
  rw [hdata]
  split
  next ha => rw [hslice, bufSlice_getElem? _ (hlen ▸ ha)]
  next ha => rw [List.getElem?_eq_none (Nat.not_lt.1 ha)]

/-- R140, R145: `msg_valid` and the ports with it follow the same decode as the message handed over. -/
theorem rxOutcome_of_delivered {m : Message} (hr : t.result = .rxstep (some p) (.delivered m)) :
    rxOutcome t = some (.ok m) ∧ outboundOf s.role m = false ∧ p = encodeMessage m := by
  obtain ⟨-, hx, hrole, -⟩ := exec_rxstep_inv h hr
  obtain ⟨_, ⟨⟩, hdec⟩ := rxResultOfFeed_eq_delivered.1 hx.symm
  exact ⟨by simp [rxOutcome, completed, hr, hrole, hdec], decodeFor_eq_ok.1 hdec⟩

theorem rxOutcome_of_failed {e : DecodeError} (hr : t.result = .rxstep (some p) (.failed e)) :
    rxOutcome t = some (.err e) := by
  obtain ⟨-, hx, hrole, -⟩ := exec_rxstep_inv h hr
  obtain ⟨_, ⟨⟩, hdec⟩ := rxResultOfFeed_eq_failed.1 hx.symm
  simp [rxOutcome, completed, hr, hrole, hdec]

end Completed

theorem role_of_inbound_h2d {r : Role} {m : H2DMessage} (h : outboundOf r (.h2d m) = false) : r = .device := by
  cases r with
  | device => rfl
  | host => cases h

theorem role_of_inbound_d2h {r : Role} {m : D2HMessage} (h : outboundOf r (.d2h m) = false) : r = .host := by
  cases r with
  | device => cases h
  | host => rfl

/-- R113, R145: byte `i` of a text is byte `i + 2` of its payload, if that is a payload the parser can emit. -/
theorem encodeMessage_print_getElem? {x : Text} (hmax : (encodeMessage (.d2h (.print x))).length ≤ 255) {i : Nat}
    (hi : i < x.bytes.length) :
    (encodeMessage (.d2h (.print x)))[(BitVec.ofNat 8 (i + 2)).toNat]? = x.bytes[i]? := by
  rw [encodeMessage_print_length] at hmax
  have hindex : (BitVec.ofNat 8 (i + 2)).toNat = i + 2 := Nat.mod_eq_of_lt (by omega)
  rw [hindex]
  rfl

/-- Settles O49: the view shows the completed payload, and the message ports follow its decode. -/
theorem messagePorts : Obligations.MessagePorts := by
  intro s t b p h hp
  have hdata := plData_of_completed h hp
  refine ⟨rfl, fun a _ => hdata a, fun a ha => (hdata a).trans (List.getElem?_eq_none ha), fun v hr => ?_,
    fun x hr => ?_, fun e hr => ?_⟩
  · obtain ⟨hok, hd, -⟩ := rxOutcome_of_delivered h hr
    exact ⟨role_of_inbound_h2d hd, by simp [msgBool, hok], by simp [msgTextLen, hok]⟩
  · obtain ⟨hok, hd, rfl⟩ := rxOutcome_of_delivered h hr
    obtain ⟨hfeed, -⟩ := exec_rxstep_inv h hr
    obtain ⟨-, hmax⟩ := feedParser_payload_length hfeed
    exact ⟨role_of_inbound_d2h hd, by simp [msgTextLen, hok, lengthByte], by simp [msgBool, hok],
      fun i hi => (hdata _).trans (encodeMessage_print_getElem? hmax hi)⟩
  · have herr := rxOutcome_of_failed h hr
    exact ⟨by simp [msgBool, herr], by simp [msgTextLen, herr]⟩

/-! ### Two endpoints over an ideal link -/

/-- A step that answers, and then the rest of the run. -/
theorem run_succ {s t : State} (h : step s = .next t) (k : Nat) :
    Host.Core.run Sys2Proof.core (k + 1) s = Host.Core.run Sys2Proof.core k t := by
  have hcore : Sys2Proof.core.step s = .next t := h
  simp only [Host.Core.run, hcore]

/-- R126, R145: the SEND port of a message is there exactly for the role that sends it. -/
theorem sendTransfer_presentIn (r : Role) (m : Message) : (sendTransfer m).presentIn r = outboundOf r m := by
  rcases m with ⟨v⟩ | ⟨x⟩ <;> cases r <;> rfl

theorem decode_sendTransfer (el wc : Byte) (m : Message) : decode el wc (sendTransfer m) = .ok (.send m) := by
  rcases m with ⟨v⟩ | ⟨x⟩ <;> rfl

/-- R142: a step with a representable outbound message offered takes the offer and writes its frame. -/
theorem step_send {s : State} {m : Message} {rest : List Transfer} (hpending : s.pending = sendTransfer m :: rest)
    (hd : outboundOf s.role m = true) (hr : Representable m) :
    ∃ t, step s = .next t ∧ t.role = s.role ∧ t.pending = rest ∧
      t.txFrames = s.txFrames ++ [frameBytes (encodeMessage m)] := by
  have hstep := step_offered hpending ((sendTransfer_presentIn _ _).trans hd) (decode_sendTransfer _ _ _)
  exact ⟨_, hstep.trans (exec_send hd hr), rfl, rfl, rfl⟩

/-- R142: steps over offered representable outbound messages write their frames, one a step. -/
theorem run_sends {s : State} {ms : List Message} (hpending : s.pending = ms.map sendTransfer)
    (hms : ∀ m ∈ ms, outboundOf s.role m = true ∧ Representable m) :
    ∃ t, Host.Core.run Sys2Proof.core ms.length s = .next t ∧
      t.txFrames = s.txFrames ++ ms.map fun m => frameBytes (encodeMessage m) := by
  induction ms generalizing s with
  | nil => exact ⟨s, rfl, (List.append_nil _).symm⟩
  | cons m ms ih =>
    obtain ⟨⟨hd, hr⟩, hrest⟩ := List.forall_mem_cons.1 hms
    obtain ⟨s1, hstep, hrole1, hpending1, hframes1⟩ := step_send hpending hd hr
    obtain ⟨t, hrun, hframes⟩ := ih hpending1 (hrole1 ▸ hrest)
    refine ⟨t, (run_succ hstep ms.length).trans hrun, ?_⟩
    rw [hframes, hframes1, List.map_cons, List.append_assoc, List.singleton_append]

/-- R146: steps over offered `RXSTEP`s are those `RXSTEP`s. -/
theorem run_rxsteps {s : State} {bs : Bytes} {q : Parser} {rs : List (Option Bytes)}
    (hpending : s.pending = bs.map Transfer.rxstep) (h : runFeeds s.parser bs = .next (q, rs)) :
    Host.Core.run Sys2Proof.core bs.length s = execRxsteps { s with pending := [] } bs := by
  induction bs generalizing s rs with
  | nil =>
    cases s
    cases hpending
    rfl
  | cons b bs ih =>
    obtain ⟨p1, r, rs', hfeed, hrest, rfl⟩ := runFeeds_cons_eq_next h
    have hstep := (step_offered (i := .rxstep b) hpending rfl rfl).trans (exec_rxstep hfeed)
    refine ((run_succ hstep bs.length).trans (ih rfl hrest)).trans ?_
    rw [execRxsteps, exec_rxstep (s := { s with pending := [] }) hfeed]
    rfl

/-- R7, R126: of the two roles, each receives what the other sends. -/
theorem outboundOf_other_role {r r' : Role} (hne : r' ≠ r) (m : Message) : outboundOf r' m = !outboundOf r m := by
  cases r with
  | device =>
    obtain rfl : r' = .host := by cases r' <;> trivial
    cases m <;> rfl
  | host =>
    obtain rfl : r' = .device := by cases r' <;> trivial
    cases m <;> rfl

/-- Settles O54: the sender's steps write the messages' frames, and the receiver's are the `RXSTEP`s of their bytes. -/
theorem deliveryOverIdealLink : Obligations.DeliveryOverIdealLink := by
  intro sender receiver ms hms hrole hpending hsync
  obtain ⟨sender', hsend, hframes⟩ := run_sends hpending hms
  refine ⟨sender', _, hsend, hframes, fun hlink => ?_⟩
  have hin : ∀ m ∈ ms, outboundOf receiver.role m = false ∧ Representable m := by
    intro m hm
    obtain ⟨hd, hr⟩ := hms m hm
    exact ⟨by rw [outboundOf_other_role hrole, hd]; rfl, hr⟩
  have hreach : receiver.parser.InFrame := ⟨fun _ => hsync.2, fun hel => absurd hsync.1 hel⟩
  obtain ⟨q, rs, hfeeds⟩ := runFeeds_total hreach (ms.map fun m => frameBytes (encodeMessage m)).flatten
  obtain ⟨t, hrun, hidle, hres⟩ := execRxsteps_frames (s := { receiver with pending := [] }) hsync hin
  rw [List.flatMap_def] at hrun
  exact ⟨t, (run_rxsteps hlink hfeeds).trans hrun, hres, hidle⟩

end Sys2Proof.Machine

/-! PROOFS. What can go wrong and what is reported of it: that no reachable state is a dead end (R177), which operation can
report which error (R162), that an RXSTEP keeps nothing of an earlier failure (R169, R170), and the events and the error code
at the receive ports (R161, R167). -/

namespace Sys2Proof.Machine

/-! ### No lock-up -/

/-- R80: a reachable parser takes every byte. -/
theorem exec_feed_total {s : State} (hp : s.parser.InFrame) (b : Byte) : ∃ t, exec (.feed b) s = .next t := by
  obtain ⟨q, r, hfeed⟩ := feedParser_total hp b
  exact ⟨_, exec_feed hfeed⟩

/-- R142: a message of the outbound type is sent or refused as too long, in any state. -/
theorem exec_send_total {s : State} {m : Message} (hd : outboundOf s.role m = true) : ∃ t, exec (.send m) s = .next t := by
  by_cases hr : Representable m
  · exact ⟨_, exec_send hd hr⟩
  · exact ⟨_, exec_send_oversize hd (Nat.not_le.1 hr)⟩

/-- R177: over a reachable parser an instruction of the table that applies answers a next state. -/
theorem exec_total {i : Instr} {s : State} (hp : s.parser.InFrame) (hwf : i.wellFormed = true)
    (hmode : i.inMode s.parser.el s.parser.wc = true) (hsend : ∀ m, i = .send m → outboundOf s.role m = true) :
    ∃ t, exec i s = .next t := by
  cases i with
  | rxLen0 => exact exec_rxLen0_eq_feed (beq_iff_eq.1 hmode) ▸ exec_feed_total hp _
  | rxLen => exact exec_rxLen_eq_feed (beq_iff_eq.1 hmode) ▸ exec_feed_total hp _
  | rxData => exact exec_rxData_eq_feed (beq_iff_eq.1 hmode) ▸ exec_feed_total hp _
  | rxLast => exact exec_rxLast_eq_feed (beq_iff_eq.1 hmode) ▸ exec_feed_total hp _
  | feed b => exact exec_feed_total hp b
  | frame l payload =>
    obtain ⟨q, rs, hrun⟩ := runFeeds_total hp (l :: payload)
    exact ⟨_, exec_frame (beq_iff_eq.1 hwf) hrun⟩
  | rxstep b =>
    obtain ⟨q, r, hfeed⟩ := feedParser_total hp b
    exact ⟨_, exec_rxstep hfeed⟩
  | h2dBadBool => exact ⟨_, if_pos (of_decide_eq_true hwf)⟩
  | h2dReservedTag | d2hReservedTag => exact ⟨_, if_neg (bne_iff_ne.1 hwf)⟩
  | send m => exact exec_send_total (hsend m rfl)
  | reset | h2dSetOutput | d2hPrint | encf | encSetOutput | encPrint | dec | decH2D | decD2H => exact ⟨_, rfl⟩

/-- Settles O28: the invariant makes the parser reachable, so the instruction answers, and every answer keeps it. -/
theorem noLockUp : Obligations.NoLockUp := by
  intro s i hs hwf hmode hsend
  obtain ⟨t, ht⟩ := exec_total hs.parser.inFrame hwf hmode hsend
  exact ⟨t, ht, exec_inv hs ht⟩

/-! ### Which operation reports what -/

/-- R115: a bool field is missing, bad or read, and only what follows it can fail then. -/
theorem readSetOutput_ne_invalidUtf8 (fields : Bytes) : readSetOutput fields ≠ .err .invalidUtf8 := by
  intro h
  cases fields with
  | nil => cases h
  | cons x rest =>
    by_cases hx : 1 < x.toNat
    · rw [readSetOutput_bad rest hx] at h
      cases h
    · obtain ⟨v, rfl⟩ := exists_boolByte_eq (Nat.not_lt.1 hx)
      rw [readSetOutput_bool] at h
      obtain ⟨-, ⟨⟩⟩ := finishMessage_eq_err.1 h

/-- R116: a text field is short, invalid or read, and only what follows it can fail then. -/
theorem readPrint_ne_invalidBool (fields : Bytes) : readPrint fields ≠ .err .invalidBool := by
  intro h
  cases fields with
  | nil => cases h
  | cons n rest =>
    rcases readTextBytes_cases n rest with ⟨hshort, -⟩ | ⟨hlen, hinvalid, -⟩ | ⟨hlen, text, htext, -⟩
    · rw [readPrint_short hshort] at h
      cases h
    · rw [readPrint_invalid hlen hinvalid] at h
      cases h
    · rw [readPrint_got hlen htext] at h
      obtain ⟨-, ⟨⟩⟩ := finishMessage_eq_err.1 h

theorem decodeH2D_ne_invalidUtf8 (p : Bytes) : decodeH2D p ≠ .err .invalidUtf8 := by
  cases p with
  | nil => nofun
  | cons t fields =>
    rw [decodeH2D_cons]
    split
    · exact readSetOutput_ne_invalidUtf8 fields
    · nofun

theorem decodeD2H_ne_invalidBool (p : Bytes) : decodeD2H p ≠ .err .invalidBool := by
  cases p with
  | nil => nofun
  | cons t fields =>
    rw [decodeD2H_cons]
    split
    · exact readPrint_ne_invalidBool fields
    · nofun

/-- R101: the encoder fails exactly above its limit. -/
theorem encodeFrame_eq_err {p : Bytes} {e : EncodeError} :
    encodeFrame p = .err e ↔ e = .oversize ∧ Config.txMaxPayload < p.length := by
  by_cases h : Config.txMaxPayload < p.length
  · simp [encodeFrame_oversize h, h]
  · simp [encodeFrame_ok (Nat.not_lt.1 h), h]

/-- R142, R162: a `SEND` that fails had a message that does not frame. -/
theorem exec_send_failed {s t : State} {m : Message} {e : EncodeError} (h : exec (.send m) s = .next t)
    (hr : t.result = .send (.failed e)) : e = .oversize ∧ ¬ Representable m := by
  obtain ⟨-, ⟨f, -, rfl⟩ | ⟨e', henc, rfl⟩⟩ := exec_send_cases h
  · cases hr
  · cases hr
    exact (encodeFrame_eq_err.1 henc).imp_right Nat.not_le.2

/-- Settles O42: each decoder by its one field, and the two transmit operations by the encoder's limit. -/
theorem errorKindsPerOperation : Obligations.ErrorKindsPerOperation := by
  refine ⟨decodeH2D_ne_invalidUtf8, decodeD2H_ne_invalidBool, fun s t m e h hr => ?_, fun s t p e h hr => ?_⟩
  · exact (exec_send_failed h hr).imp_right not_representable_iff.1
  · cases h
    exact encodeFrame_eq_err.1 (OpResult.framed.inj hr)

/-! ### What an RXSTEP depends on -/

/-- Settles O47: the `FEED` reads the parser, the decode the role and the payload, and the record is only added to. -/
theorem rxstepIgnoresEarlierResults : Obligations.RxstepIgnoresEarlierResults := by
  intro s s' t b hpar hrole h
  obtain ⟨q, r, _, hfeed, -, -⟩ := exec_rxstep_cases h
  cases (exec_rxstep hfeed).symm.trans h
  have h' := exec_rxstep (s := s') (hpar ▸ hfeed)
  rw [← hrole] at h'
  exact ⟨_, rxResultOfFeed s.role r, h', rfl, rfl, rfl, rfl⟩

/-! ### The events of an RXSTEP -/

/-- R145: the ports of the decode are driven together with `frame_done`, in any state. -/
theorem frameDone_eq_isSome_decErr (t : State) : frameDone t = (decErr t).isSome := by
  have hdone : frameDone t = (rxOutcome t).isSome := by simp [frameDone, rxOutcome]
  rw [hdone, decErr]
  rcases rxOutcome t with _ | ⟨m⟩ | ⟨e⟩ <;> rfl

/-- R161: the code of an error is not the code of a success. -/
theorem decErrCode_ne_zero (e : DecodeError) : decErrCode e ≠ 0#3 := by cases e <;> decide

theorem msgValid_iff_decErr (t : State) : msgValid t = true ↔ decErr t = some 0#3 := by
  unfold msgValid decErr
  rcases rxOutcome t with _ | ⟨m⟩ | ⟨e⟩
  · simp
  · simp
  · simp [decErrCode_ne_zero e]

theorem msgValid_iff_outcome (t : State) : msgValid t = true ↔ ∃ m, rxOutcome t = some (.ok m) := by
  unfold msgValid
  rcases rxOutcome t with _ | ⟨m⟩ | ⟨e⟩ <;> simp

theorem frameDone_not_msgValid_iff_outcome (t : State) :
    frameDone t = true ∧ msgValid t = false ↔ ∃ e, rxOutcome t = some (.err e) := by
  rw [frameDone_eq_isSome_decErr, decErr, msgValid]
  rcases rxOutcome t with _ | ⟨m⟩ | ⟨e⟩ <;> simp

section Rxstep
variable {s t : State} {b : Byte} (h : exec (.rxstep b) s = .next t)
include h

/-- R140, R145: a decode reported at the ports is that of the payload named in the result, and is handed over with it. -/
theorem exists_result_of_rxOutcome {d : DecResult} (hd : rxOutcome t = some d) :
    ∃ p, t.result = .rxstep (some p) (rxResultOf d) := by
  obtain ⟨p, hp, hdec⟩ := Option.map_eq_some_iff.1 hd
  obtain ⟨x, hr⟩ := exists_result_of_completed h hp
  obtain ⟨-, rfl, hrole, -⟩ := exec_rxstep_inv h hr
  exact ⟨p, by rw [hr, rxResultOfFeed, ← hrole, hdec]⟩

theorem frameLen_of_frameDone (hdone : frameDone t = true) : frameLen t = some s.parser.el := by
  obtain ⟨p, hp⟩ := Option.isSome_iff_exists.1 hdone
  obtain ⟨x, hr⟩ := exists_result_of_completed h hp
  obtain ⟨hfeed, -⟩ := exec_rxstep_inv h hr
  obtain ⟨-, -, -, hlen, -⟩ := feedParser_completes hfeed
  rw [frameLen, hp, Option.map_some, lengthByte_of_length hlen]

theorem decErr_of_delivered {p : Bytes} {m : Message} (hr : t.result = .rxstep (some p) (.delivered m)) :
    decErr t = some 0#3 := by
  obtain ⟨hok, -⟩ := rxOutcome_of_delivered h hr
  rw [decErr, hok]

theorem decErr_of_failed {p : Bytes} {e : DecodeError} (hr : t.result = .rxstep (some p) (.failed e)) :
    decErr t = some (decErrCode e) := by
  rw [decErr, rxOutcome_of_failed h hr]

end Rxstep

/-- R145 (log entry 21): without a completed payload nothing is decoded at the ports. -/
theorem decErr_of_not_completed {t : State} (h : completed t.result = none) : decErr t = none := by
  rw [decErr, rxOutcome, h, Option.map_none]

/-- Settles O48: the ports follow the decode of the completed payload, and the result hands over the same decode. -/
theorem rxstepEvents : Obligations.RxstepEvents := by
  intro s t b h
  refine ⟨frameDone_eq_isSome_decErr t, msgValid_iff_decErr t, (msgValid_iff_outcome t).trans ⟨?_, ?_⟩,
    (frameDone_not_msgValid_iff_outcome t).trans ⟨?_, ?_⟩, frameLen_of_frameDone h⟩
  · rintro ⟨m, hok⟩
    obtain ⟨p, hr⟩ := exists_result_of_rxOutcome h hok
    exact ⟨p, m, hr⟩
  · rintro ⟨p, m, hr⟩
    obtain ⟨hok, -⟩ := rxOutcome_of_delivered h hr
    exact ⟨m, hok⟩
  · rintro ⟨e, herr⟩
    obtain ⟨p, hr⟩ := exists_result_of_rxOutcome h herr
    exact ⟨p, e, hr⟩
  · rintro ⟨p, e, hr⟩
    exact ⟨e, rxOutcome_of_failed h hr⟩

/-- Settles O56: `dec_err` is the code of the decode handed over, and is not driven where no payload was completed. -/
theorem decodeErrorCodes : Obligations.DecodeErrorCodes := by
  refine ⟨fun s t b p h => ⟨fun m => decErr_of_delivered h, decErr_of_failed h, decErr_of_failed h, decErr_of_failed h,
    decErr_of_failed h, decErr_of_failed h, fun hr => decErr_of_not_completed (by rw [hr]; rfl)⟩, fun s t p h => ?_⟩
  cases h
  exact ⟨rfl, rfl⟩

end Sys2Proof.Machine

/-! PROOFS. RESET (R190): the state it answers from every state, and that the byte fed next is read as a length byte. -/

namespace Sys2Proof.Machine

/-- R190: the parser goes to Idle with `BUF` kept, and nothing else but the result changes. -/
theorem exec_reset (s : State) :
    exec .reset s = .next { s with parser := { s.parser with el := 0#8, wc := 0#8 }, result := .none } := rfl

/-- R81, R82: the byte of a `FEED` in Idle is read as a length byte, zero included. -/
theorem exec_feed_idle_opens {s : State} (b : Byte) (hel : s.parser.el = 0#8) :
    ∃ u, exec (.feed b) s = .next u ∧ u.parser.el = b ∧ u.parser.wc = 0#8 ∧ u.result = .fed none :=
  ⟨_, exec_feed (feedParser_idle b hel), rfl, rfl, rfl⟩

/-- Settles O7: RESET leaves Idle from any state, and in Idle any byte fed is a length byte. -/
theorem resetOperation : Obligations.ResetOperation := fun s =>
  ⟨_, exec_reset s, rfl, rfl, rfl, rfl, fun b => exec_feed_idle_opens b rfl⟩

end Sys2Proof.Machine
